-- ==== Sys2Proof/Word.lean ====
section
/-! DEFINITION. The widths of the block's words: the transfer byte and the bank registers, a bit position, the
command word, opcodes and uop codes, the index of a micro-program (spec/00_scope.md rules R5 and R6). -/

namespace Sys2Proof

/-- A transfer byte or a register of the I/O bank (`BYTE_W` = `BANK_W` = 8, R5). -/
abbrev Byte := BitVec 8

/-- A bit position in the I/O bank (`BIT_W` = 3, R5). -/
abbrev BitPos := BitVec 3

/-- A command word (`CMD_W` = 12, R5 and R60). -/
abbrev CmdWord := BitVec 12

/-- The opcode field of a command word, and register `op` (R60, R19). -/
abbrev Opcode := BitVec 4

/-- The code of a micro-operation (R65). -/
abbrev UopCode := BitVec 4

/-- An index into a micro-program, and register `upc` (`UPC_W` = 6, R5 and R22). -/
abbrev Upc := BitVec 6

/-- A target (slave) address (`ADDR_W` = 7, R5 and R69). -/
abbrev SlaveAddr := BitVec 7

end Sys2Proof
end

