-- ==== Sys2Proof/Config.lean ====
section
/-! DEFINITION. What the spec leaves to the implementation or to the outside world, as constants without a body, so
that no proof can rest on a value: the lengths of the two delays (R5, R102), the levels on the input ports
at an edge (R26, R52), and the value of `upc + 1` past the top (R8 (c)). -/

namespace Sys2Proof.Config

/-- `DELAY_FULL_CYCLES` less one (R5: OPEN, at least 1). DESIGN CHOICE, log 1: safe. -/
opaque delayFullExtra : Nat

/-- `DELAY_HALF_CYCLES` less one (R5: OPEN, at least 1). DESIGN CHOICE, log 1: safe. -/
opaque delayHalfExtra : Nat

/-- `DELAY_FULL_CYCLES`, at least 1. -/
def delayFullCycles : Nat := delayFullExtra + 1

/-- `DELAY_HALF_CYCLES`, at least 1. -/
def delayHalfCycles : Nat := delayHalfExtra + 1

/-- The level on `rst` at edge number `n` where `State.inputs` lists none. DESIGN CHOICE, log 2: safe. -/
opaque freeRst : Nat → Bool

/-- The level on `cmd_valid` at edge number `n` where `State.inputs` lists none. DESIGN CHOICE, log 2: safe. -/
opaque freeCmdValid : Nat → Bool

/-- The word on `cmd` at edge number `n` where `State.inputs` lists none. DESIGN CHOICE, log 2: safe. -/
opaque freeCmd : Nat → CmdWord

/-- The levels on `pin_i` at edge number `n` where `State.inputs` lists none (R52: every answer is free).
DESIGN CHOICE, log 2: safe. -/
opaque freePin : Nat → Byte

/-- What `upc` holds after an advance from 63: "no rule says what a wrap would do" (R8 (c)).
DESIGN CHOICE, log 4: safe. -/
opaque upcWrap : Upc

end Sys2Proof.Config
end

