-- ==== Sys2Proof/Syntax.lean ====
section
/-! DEFINITION. The instructions: one constructor per row of spec/opcode_table.json, the five commands of the host
and the twelve micro-operations of the sequencer (spec/30_encoding.md section 1, rules R61 and R65). -/

namespace Sys2Proof

/-- The instructions of both levels. -/
inductive Instr where
  /-- START, the start condition (R110). -/
  | start
  /-- STOP, the stop condition (R112). -/
  | stop
  /-- WRITE, send the byte `data` (R120). -/
  | write (data : Byte)
  /-- READ, receive a byte; `last` selects NACK (R130). -/
  | read (last : Bool)
  /-- BIND, set the two bit positions once (R80). -/
  | bind (sda scl : BitPos)
  /-- SDA_HOLD (R87). -/
  | sdaHold
  /-- SDA_RELEASE (R88). -/
  | sdaRelease
  /-- SCL_HOLD (R89). -/
  | sclHold
  /-- SCL_RELEASE (R90). -/
  | sclRelease
  /-- SCL_WAIT (R91). -/
  | sclWait
  /-- DELAY_FULL (R100). -/
  | delayFull
  /-- DELAY_HALF (R101). -/
  | delayHalf
  /-- SDA_PUT (R121). -/
  | sdaPut
  /-- SDA_GET (R131). -/
  | sdaGet
  /-- ACK_GET (R122). -/
  | ackGet
  /-- BIND_LATCH (R81). -/
  | bindLatch
  /-- END (R31). -/
  | endUop
  deriving DecidableEq, Repr

/-- An instruction's word: a 12-bit command word (R60) or a 4-bit uop code (R65). The two levels have separate
spaces of words: the host issues the first, the micro-programs are made of the second. -/
inductive CodeWord where
  | cmd (w : CmdWord)
  | uop (c : UopCode)
  deriving DecidableEq, Repr

/-- Why a word is no instruction (R64 for command words, R65 for uop codes). -/
inductive Reject where
  /-- Opcode 0x0, 0x5, 0x6, 0x7 or 0x9 to 0xF. -/
  | reservedOpcode
  /-- START or STOP with a non-zero `arg`. -/
  | argNotZero
  /-- READ with a bit of `arg[7:1]` set. -/
  | readArgNotZero
  /-- BIND with `arg[3]` or `arg[7]` set. -/
  | bindMustBeZero
  /-- BIND with equal bit positions. -/
  | bindEqualPositions
  /-- A uop code 0xC to 0xF. -/
  | unusedUop
  deriving DecidableEq, Repr

/-- Whether an instruction is a command of the host (R61); the others are micro-operations. -/
def Instr.isCommand : Instr → Bool
  | .start | .stop | .write _ | .read _ | .bind _ _ => true
  | .sdaHold | .sdaRelease | .sclHold | .sclRelease | .sclWait | .delayFull | .delayHalf | .sdaPut | .sdaGet
  | .ackGet | .bindLatch | .endUop => false

end Sys2Proof
end

