-- ==== Sys2Proof/WellFormed.lean ====
section
/-! DEFINITION. Which instructions the encodings admit. Field widths are in the types; the one check left is that
BIND's two positions differ (spec/30_encoding.md rules R62 and R64, spec/40_bind.md rule R80). -/

namespace Sys2Proof

/-- The check, as a Bool. -/
def Instr.wf : Instr → Bool
  | .start | .stop | .write _ | .read _ => true
  | .bind sda scl => sda != scl
  | .sdaHold | .sdaRelease | .sclHold | .sclRelease | .sclWait | .delayFull | .delayHalf | .sdaPut | .sdaGet
  | .ackGet | .bindLatch | .endUop => true

/-- An instruction some legal word spells. -/
abbrev Instr.WellFormed (i : Instr) : Prop := i.wf = true

end Sys2Proof
end

