-- ==== Sys2Proof/Decode.lean ====
section
/-! DEFINITION. The encodings of spec/30_encoding.md: opcodes (R61), argument layouts (R62), uop codes (R65), the
decoders, which refuse every reserved word by name (R64), and the encoder, written from the same tables. -/

namespace Sys2Proof

/-! ### Opcodes (R61) -/

def Opc.start : Opcode := 0x1#4
def Opc.stop : Opcode := 0x2#4
def Opc.write : Opcode := 0x3#4
def Opc.read : Opcode := 0x4#4
def Opc.bind : Opcode := 0x8#4

/-! ### Uop codes (R65) -/

def Uop.sdaHold : UopCode := 0x0#4
def Uop.sdaRelease : UopCode := 0x1#4
def Uop.sclHold : UopCode := 0x2#4
def Uop.sclRelease : UopCode := 0x3#4
def Uop.sclWait : UopCode := 0x4#4
def Uop.delayFull : UopCode := 0x5#4
def Uop.delayHalf : UopCode := 0x6#4
def Uop.sdaPut : UopCode := 0x7#4
def Uop.sdaGet : UopCode := 0x8#4
def Uop.ackGet : UopCode := 0x9#4
def Uop.bindLatch : UopCode := 0xA#4
def Uop.endUop : UopCode := 0xB#4

/-! ### Fields of a command word (R60, R62) -/

/-- `opc`, bits 11:8 (R60). -/
def opcOf (w : CmdWord) : Opcode := w.extractLsb' 8 4

/-- `arg`, bits 7:0 (R60). -/
def argOf (w : CmdWord) : Byte := w.extractLsb' 0 8

/-- BIND's `sda_bit`, `arg[2:0]` (R62). -/
def sdaField (arg : Byte) : BitPos := arg.extractLsb' 0 3

/-- BIND's `scl_bit`, `arg[6:4]` (R62). -/
def sclField (arg : Byte) : BitPos := arg.extractLsb' 4 3

/-- The command word with opcode `opc` and argument `arg` (R60). -/
def cmdWord (opc : Opcode) (arg : Byte) : CmdWord := (opc.setWidth 12 <<< 8) ||| arg.setWidth 12

/-- READ's argument: `last` in bit 0, bits 7:1 zero (R62). -/
def readArg (last : Bool) : Byte := (BitVec.ofBool last).setWidth 8

/-- BIND's argument: bits 7 and 3 zero, `scl_bit` in 6:4, `sda_bit` in 2:0 (R62). -/
def bindArg (sda scl : BitPos) : Byte := (scl.setWidth 8 <<< 4) ||| sda.setWidth 8

/-! ### Decoders -/

/-- A command word, read by its opcode (R61), its argument checked (R62); every other word is reserved (R64). -/
def decodeCmd (w : CmdWord) : Except Reject Instr :=
  if opcOf w = Opc.start then
    if argOf w = 0#8 then .ok .start else .error .argNotZero
  else if opcOf w = Opc.stop then
    if argOf w = 0#8 then .ok .stop else .error .argNotZero
  else if opcOf w = Opc.write then
    .ok (.write (argOf w))
  else if opcOf w = Opc.read then
    if (argOf w).extractLsb' 1 7 = 0#7 then .ok (.read ((argOf w).getLsbD 0)) else .error .readArgNotZero
  else if opcOf w = Opc.bind then
    if (argOf w).getLsbD 3 || (argOf w).getLsbD 7 then .error .bindMustBeZero
    else if sdaField (argOf w) = sclField (argOf w) then .error .bindEqualPositions
    else .ok (.bind (sdaField (argOf w)) (sclField (argOf w)))
  else .error .reservedOpcode

/-- A uop code (R65). -/
def decodeUop (c : UopCode) : Except Reject Instr :=
  if c = Uop.sdaHold then .ok .sdaHold
  else if c = Uop.sdaRelease then .ok .sdaRelease
  else if c = Uop.sclHold then .ok .sclHold
  else if c = Uop.sclRelease then .ok .sclRelease
  else if c = Uop.sclWait then .ok .sclWait
  else if c = Uop.delayFull then .ok .delayFull
  else if c = Uop.delayHalf then .ok .delayHalf
  else if c = Uop.sdaPut then .ok .sdaPut
  else if c = Uop.sdaGet then .ok .sdaGet
  else if c = Uop.ackGet then .ok .ackGet
  else if c = Uop.bindLatch then .ok .bindLatch
  else if c = Uop.endUop then .ok .endUop
  else .error .unusedUop

/-- Either level. -/
def decode : CodeWord → Except Reject Instr
  | .cmd w => decodeCmd w
  | .uop c => decodeUop c

/-- The instruction in an opcode-table word: rows of up to 8 bits are uops (4 bits and zeros), longer rows
commands (12 bits and zeros); the table numbers a row's bits as R60 and R65 do. -/
def decodeTableWord (nbits w : Nat) : Option Instr :=
  if nbits ≤ 8 then
    if w < 16 then (decodeUop (BitVec.ofNat 4 w)).toOption else none
  else if nbits ≤ 16 then
    if w < 4096 then (decodeCmd (BitVec.ofNat 12 w)).toOption else none
  else none

/-! ### Encoder -/

/-- The word of an instruction (R62, R65). -/
def encode : Instr → CodeWord
  | .start => .cmd (cmdWord Opc.start 0#8)
  | .stop => .cmd (cmdWord Opc.stop 0#8)
  | .write data => .cmd (cmdWord Opc.write data)
  | .read last => .cmd (cmdWord Opc.read (readArg last))
  | .bind sda scl => .cmd (cmdWord Opc.bind (bindArg sda scl))
  | .sdaHold => .uop Uop.sdaHold
  | .sdaRelease => .uop Uop.sdaRelease
  | .sclHold => .uop Uop.sclHold
  | .sclRelease => .uop Uop.sclRelease
  | .sclWait => .uop Uop.sclWait
  | .delayFull => .uop Uop.delayFull
  | .delayHalf => .uop Uop.delayHalf
  | .sdaPut => .uop Uop.sdaPut
  | .sdaGet => .uop Uop.sdaGet
  | .ackGet => .uop Uop.ackGet
  | .bindLatch => .uop Uop.bindLatch
  | .endUop => .uop Uop.endUop

end Sys2Proof
end

