-- ==== Sys2Proof/Machine/State.lean ====
section
/-! DEFINITION. The machine's state as plain data: every register of the table of spec/10_state.md rule R10, and the
model's own record of what the outside presents on the input ports (R26). The reasons a step can stop. Reset. -/

namespace Sys2Proof.Machine

/-- Register `phase` (R24): two bits, four codes, all named. STOP-SENT has no code (spec/90_conflicts.md C3). -/
inductive Phase where
  /-- 0, IDLE. -/
  | idle
  /-- 1, START_SENT. -/
  | startSent
  /-- 2, BYTE_TRANSFER_WRITE. -/
  | byteTransferWrite
  /-- 3, BYTE_TRANSFER_READ. -/
  | byteTransferRead
  deriving DecidableEq, Repr

/-- The levels on the input ports at one clock edge (R26). -/
structure PortIn where
  /-- `rst`, synchronous reset, active high (R170). -/
  rst : Bool
  /-- `cmd_valid`: the host presents a command. -/
  cmdValid : Bool
  /-- `cmd`, the command word (R60). -/
  cmd : CmdWord
  /-- `pin_i`, the levels on the pads (R15). -/
  pin : Byte
  deriving DecidableEq, Repr

/-- The state. The first seventeen fields are the registers of R10; the last two are the model's own (log 2). -/
structure State where
  /-- The binding has been set (R11). -/
  bound : Bool
  /-- Bit position of the data line (R12). -/
  sdaBit : BitPos
  /-- Bit position of the clock line (R12). -/
  sclBit : BitPos
  /-- `DDR`, the direction register: 1 is output (R13). -/
  ddr : Byte
  /-- `PORT`, the output register (R14). -/
  port : Byte
  /-- A command is running (R18). -/
  busy : Bool
  /-- The opcode of the command running or last run (R19). -/
  op : Opcode
  /-- Bit 0 of that command's argument (R19). -/
  last : Bool
  /-- The shift register that holds the transfer byte (R20). -/
  sh : Byte
  /-- The acknowledgment bit sampled by the last WRITE (R21). -/
  nack : Bool
  /-- The index of the uop to execute (R22). -/
  upc : Upc
  /-- The delay counter (R23), held as a number: `DLY_W` only says "enough to hold `DELAY_FULL_CYCLES`" (R5).
  DESIGN CHOICE, log 3: safe. -/
  dly : Nat
  /-- A delay is in progress (R23). -/
  dlyRun : Bool
  /-- The protocol position (R24). -/
  phase : Phase
  /-- The last command has completed (R25). -/
  rspValid : Bool
  /-- It succeeded (R25). -/
  rspOk : Bool
  /-- The byte returned by READ (R25). -/
  rspData : Byte
  /-- The model's own: what the outside presents at the coming edges, oldest first; past its end the inputs are
  the free values of `Config`. DESIGN CHOICE, log 2: safe. -/
  inputs : List PortIn
  /-- The model's own: the number of edges so far, to which the free inputs are applied.
  DESIGN CHOICE, log 2: safe. -/
  tick : Nat
  deriving DecidableEq, Repr

/-- Why the machine stops with a fault. -/
inductive Fault where
  /-- Raised by `step` when `busy` is set and the micro-program of `op` has no uop at `upc`. No run from reset gets
  there: every micro-program ends in END (R22, R51). The spec gives such a state no step. DEDUCED, log 7: safe. -/
  | noMicroOp
  deriving DecidableEq, Repr

/-- Why the machine has no next state: the spec's `refuse` (R7). -/
inductive Refusal where
  /-- Raised by an arm of `exec` whose instruction has no meaning yet (none is left): safe. -/
  | notModelled (mnemonic : String)
  /-- Raised when an idle block is presented a word that spells no command (R64), and by the meaning of BIND with
  equal positions, which no word spells: safe, the spec says `refuse`. -/
  | reservedWord (why : Reject)
  /-- Raised by the meanings of START, STOP, WRITE and READ while `bound = 0` (R82): safe, the spec says
  `refuse`. -/
  | commandBeforeBind
  deriving DecidableEq, Repr

/-- The machine right after reset: the values of R10 and R171. No input is listed: what the outside presents is
free (log 2). -/
def State.reset : State where
  bound := false
  sdaBit := 0#3
  sclBit := 0#3
  ddr := 0x00#8
  port := 0x00#8
  busy := false
  op := 0x0#4
  last := false
  sh := 0x00#8
  nack := false
  upc := 0#6
  dly := 0
  dlyRun := false
  phase := .idle
  rspValid := false
  rspOk := false
  rspData := 0x00#8
  inputs := []
  tick := 0

end Sys2Proof.Machine
end

