-- ==== Sys2Proof/Machine/Flags.lean ====
section
/-! DEFINITION. The status the block computes: the code of `phase` and its value at a completion
(spec/10_state.md rules R24 and R31), and the output ports as functions of the registers (R26). There is no
condition-code register (R33). -/

namespace Sys2Proof.Machine

/-- The two bits of `phase` (R24). -/
def phaseCode : Phase → BitVec 2
  | .idle => 0#2
  | .startSent => 1#2
  | .byteTransferWrite => 2#2
  | .byteTransferRead => 3#2

/-- `phase` at the completion of the command in `op` (R31); BIND leaves it. An `op` that is no command's opcode,
which no run has at a completion, leaves it too (R32). DEDUCED, log 5: safe. -/
def phaseAfter (op : Opcode) (old : Phase) : Phase :=
  if op = Opc.start then .startSent
  else if op = Opc.stop then .idle
  else if op = Opc.write then .byteTransferWrite
  else if op = Opc.read then .byteTransferRead
  else old

/-- The output ports (R26), but `cmd_ready`, which also depends on `rst`. -/
structure PortOut where
  busy : Bool
  rspValid : Bool
  rspOk : Bool
  rspData : Byte
  phase : BitVec 2
  ddrO : Byte
  portO : Byte
  deriving DecidableEq, Repr

/-- Each output is its register, at all times (R13, R14, R26). -/
def State.outputs (s : State) : PortOut where
  busy := s.busy
  rspValid := s.rspValid
  rspOk := s.rspOk
  rspData := s.rspData
  phase := phaseCode s.phase
  ddrO := s.ddr
  portO := s.port

end Sys2Proof.Machine
end

