-- ==== Sys2Proof/Machine/Ops.lean ====
section
/-! DEFINITION. The operations the meanings share: reading the input ports, passing a clock edge, resetting the
registers, accepting a command (R29), advancing (R30), completing (R31), and taking the one exception (R153). -/

namespace Sys2Proof.Machine

/-- The levels on the input ports at the coming edge (R26): the ones `inputs` lists, else free ones (R52). -/
def State.portIn (s : State) : PortIn :=
  match s.inputs with
  | p :: _ => p
  | [] => ⟨Config.freeRst s.tick, Config.freeCmdValid s.tick, Config.freeCmd s.tick, Config.freePin s.tick⟩

/-- The same state with `p` on the input ports at the coming edge. -/
def State.withPortIn (s : State) (p : PortIn) : State := { s with inputs := p :: s.inputs.tail }

/-- The clock edge is over: the inputs move on to the next edge. No register changes. -/
def State.edge (s : State) : State := { s with inputs := s.inputs.tail, tick := s.tick + 1 }

/-- The edge after a meaning has answered. -/
def afterEdge (o : Host.Outcome State Fault Refusal) : Host.Outcome State Fault Refusal :=
  match o with
  | .next t => .next t.edge
  | .fault f => .fault f
  | .refused r => .refused r

/-- Output `cmd_ready` = `!busy & !rst` (R26). -/
def State.cmdReady (s : State) : Bool := !s.busy && !s.portIn.rst

/-- Every register takes its reset value (R28, R170); the outside world is no register. -/
def State.resetRegs (s : State) : State := { State.reset with inputs := s.inputs, tick := s.tick }

/-- `upc + 1` in six bits (R8 (c), R30). The step from 63, which no micro-program takes, has a free value. -/
def upcNext (u : Upc) : Upc := if u = 63#6 then Config.upcWrap else u + 1#6

/-- `upc <- upc + 1`, how a uop ends (R30). -/
def State.advance (s : State) : State := { s with upc := upcNext s.upc }

/-- `accept(cmd)` of a legal command word (R29). -/
def State.accept (w : CmdWord) (s : State) : State :=
  { s with
    op := opcOf w
    sh := argOf w
    last := w.getLsbD 0
    nack := false
    upc := 0#6
    busy := true
    rspValid := false }

/-- Accepting a command that needs the binding: refused while `bound = 0` (R29, R82). -/
def acceptBound (w : CmdWord) (s : State) : Host.Outcome State Fault Refusal :=
  if s.bound then .next (s.accept w) else .refused .commandBeforeBind

/-- `complete(ok)` (R31). `rsp_data <- sh` whatever the command; a host relies on it after READ only
(spec/93_implementation_defined.md U4, log 6). -/
def State.complete (ok : Bool) (s : State) : State :=
  { s with
    busy := false
    rspValid := true
    rspOk := ok
    rspData := s.sh
    phase := phaseAfter s.op s.phase }

/-- Taking `NotAcknowledged` (R150, R153): `nack` is 1 and the command completes with failure, all in the step of
ACK_GET. Nothing is saved, no mode changes, control goes nowhere. There is no handler and no return instruction
(R154): the block is idle and ready for the host's next command, so returning is no operation. -/
def State.takeNotAcknowledged (s : State) : State := { s with nack := true }.complete false

end Sys2Proof.Machine
end

