-- ==== Sys2Proof/Machine/Command.lean ====
section
/-! DEFINITION. The five commands of the host. Executing a command word is `accept` (spec/10_state.md rule R29); the
command's micro-program (Machine/Fetch.lean) then runs one uop a step and does the work. `step` calls these
meanings only at an edge with `cmd_valid` and `cmd_ready` (R26, R28). -/

namespace Sys2Proof.Machine

/-- START (R110): word 0x100. -/
def execStart (s : State) : Host.Outcome State Fault Refusal := acceptBound (cmdWord Opc.start 0#8) s

/-- STOP (R112): word 0x200. -/
def execStop (s : State) : Host.Outcome State Fault Refusal := acceptBound (cmdWord Opc.stop 0#8) s

/-- WRITE (R120): word `0x300 | data`. -/
def execWrite (data : Byte) (s : State) : Host.Outcome State Fault Refusal :=
  acceptBound (cmdWord Opc.write data) s

/-- READ (R130): word 0x400 or 0x401. -/
def execRead (last : Bool) (s : State) : Host.Outcome State Fault Refusal :=
  acceptBound (cmdWord Opc.read (readArg last)) s

/-- BIND (R80): needs no binding (R29). Equal positions are a reserved word (R64), which no decoder yields. -/
def execBind (sda scl : BitPos) (s : State) : Host.Outcome State Fault Refusal :=
  if sda = scl then .refused (.reservedWord .bindEqualPositions)
  else .next (s.accept (cmdWord Opc.bind (bindArg sda scl)))

end Sys2Proof.Machine
end

