-- ==== Sys2Proof/Machine/Operands.lean ====
section
/-! DEFINITION. What a uop works on: a line and its bit position (R7), one-bit access to the bank (R43), the two
line primitives (R85, R86), a read of PIN (R15, R52), the shifts of `sh` (R8). -/

namespace Sys2Proof.Machine

/-- The two lines (R6). -/
inductive Line where
  /-- The data line. -/
  | sda
  /-- The clock line. -/
  | scl
  deriving DecidableEq, Repr

/-- `bit(L)` (R7). -/
def State.bit (s : State) : Line → BitPos
  | .sda => s.sdaBit
  | .scl => s.sclBit

/-- `X[b]` (R7). -/
def getBit (x : Byte) (b : BitPos) : Bool := x.getLsbD b.toNat

/-- `X[b] <- v`: the other seven bits keep their values (R43). -/
def setBit (x : Byte) (b : BitPos) (v : Bool) : Byte :=
  if v then x ||| (1#8 <<< b.toNat) else x &&& ~~~(1#8 <<< b.toNat)

/-- `DDR[b], PORT[b] <- dir, level`, both in one step (R44). -/
def State.setLine (L : Line) (dir level : Bool) (s : State) : State :=
  { s with ddr := setBit s.ddr (s.bit L) dir, port := setBit s.port (s.bit L) level }

/-- `hold(L)`: output, low (R85). -/
def State.hold (L : Line) (s : State) : State := s.setLine L true false

/-- `release_regs(L)`: input, level high (R86). -/
def State.releaseRegs (L : Line) (s : State) : State := s.setLine L false true

/-- `Env.pin(bit(L))`: the level the environment supplies at this step (R15, R52). -/
def State.envPin (s : State) (L : Line) : Bool := getBit s.portIn.pin (s.bit L)

/-- `sh[7]`, the bit SDA_PUT sends (R121). -/
def msb (v : Byte) : Bool := v.getLsbD 7

/-- `sh << 1` in eight bits (R8 (a)). -/
def shiftOut (v : Byte) : Byte := v <<< 1

/-- `(sh << 1) | zext_8(d)` (R8 (b)). -/
def shiftIn (v : Byte) (d : Bool) : Byte := (v <<< 1) ||| (BitVec.ofBool d).setWidth 8

end Sys2Proof.Machine
end

