-- ==== Sys2Proof/Machine/Data.lean ====
section
/-! DEFINITION. The uops that move a bit between `sh` and the data line: SDA_PUT and ACK_GET of
spec/44_write_byte.md, SDA_GET of spec/45_read_byte.md. -/

namespace Sys2Proof.Machine

/-- SDA_PUT (R121): the most significant bit of `sh` on the data line (hold = 0, release = 1), then the shift. -/
def execSdaPut (s : State) : Host.Outcome State Fault Refusal :=
  .next { (if msb s.sh then s.releaseRegs .sda else s.hold .sda) with sh := shiftOut s.sh }.advance

/-- SDA_GET (R131): one sample of the data line into bit 0 of the shifted `sh`. -/
def execSdaGet (s : State) : Host.Outcome State Fault Refusal :=
  .next { s with sh := shiftIn s.sh (s.envPin .sda) }.advance

/-- ACK_GET (R122): a high sample raises NotAcknowledged, a low one goes on. -/
def execAckGet (s : State) : Host.Outcome State Fault Refusal :=
  .next (if s.envPin .sda then s.takeNotAcknowledged else { s with nack := false }.advance)

end Sys2Proof.Machine
end

