-- ==== Sys2Proof/Machine/Delay.lean ====
section
/-! DEFINITION. The uops of spec/42_timing.md (`timing_delay_primitives`) and the delay counter. -/

namespace Sys2Proof.Machine

/-- The count at this step: the length at a delay's first step, else the counter (R102). -/
def State.delayCount (n : Nat) (s : State) : Nat := if s.dlyRun then s.dly else n

/-- One step of a delay uop of length `n` (R102). -/
def State.delayStep (n : Nat) (s : State) : State :=
  if s.delayCount n ≤ 1 then { s with dly := 0, dlyRun := false }.advance
  else { s with dly := s.delayCount n - 1, dlyRun := true }

/-- DELAY_FULL (R100). -/
def execDelayFull (s : State) : Host.Outcome State Fault Refusal := .next (s.delayStep Config.delayFullCycles)

/-- DELAY_HALF (R101). -/
def execDelayHalf (s : State) : Host.Outcome State Fault Refusal := .next (s.delayStep Config.delayHalfCycles)

end Sys2Proof.Machine
end

