-- ==== Sys2Proof/Machine/LineControl.lean ====
section
/-! DEFINITION. The uops of spec/41_line_control.md (`gpio_line_control`). -/

namespace Sys2Proof.Machine

/-- SDA_HOLD (R87). -/
def execSdaHold (s : State) : Host.Outcome State Fault Refusal := .next (s.hold .sda).advance

/-- SDA_RELEASE (R88). No wait on the data line. -/
def execSdaRelease (s : State) : Host.Outcome State Fault Refusal := .next (s.releaseRegs .sda).advance

/-- SCL_HOLD (R89). -/
def execSclHold (s : State) : Host.Outcome State Fault Refusal := .next (s.hold .scl).advance

/-- SCL_RELEASE (R90): the register part of the clock's release. -/
def execSclRelease (s : State) : Host.Outcome State Fault Refusal := .next (s.releaseRegs .scl).advance

/-- SCL_WAIT (R91): on while the clock reads high, else the same uop again; no time-out. -/
def execSclWait (s : State) : Host.Outcome State Fault Refusal :=
  .next (if s.envPin .scl then s.advance else s)

end Sys2Proof.Machine
end

