-- ==== Sys2Proof/Machine/Sequencer.lean ====
section
/-! DEFINITION. BIND_LATCH (spec/40_bind.md) and END (spec/10_state.md rule R31). -/

namespace Sys2Proof.Machine

/-- The binding is set from `sh`, once: the first caller wins (R81). -/
def State.latchBinding (s : State) : State :=
  if s.bound then s else { s with sdaBit := sdaField s.sh, sclBit := sclField s.sh, bound := true }

/-- BIND_LATCH (R81). -/
def execBindLatch (s : State) : Host.Outcome State Fault Refusal := .next s.latchBinding.advance

/-- END is `complete(1)` (R31). -/
def execEndUop (s : State) : Host.Outcome State Fault Refusal := .next (s.complete true)

end Sys2Proof.Machine
end

