-- ==== Sys2Proof/Machine/Dispatch.lean ====
section
/-! DEFINITION. One arm per instruction, each one call of its meaning. -/

namespace Sys2Proof.Machine

def exec (i : Instr) (s : State) : Host.Outcome State Fault Refusal :=
  match i with
  | .start => Sys2Proof.Machine.execStart s
  | .stop => Sys2Proof.Machine.execStop s
  | .write data => Sys2Proof.Machine.execWrite data s
  | .read last => Sys2Proof.Machine.execRead last s
  | .bind sda scl => Sys2Proof.Machine.execBind sda scl s
  | .sdaHold => Sys2Proof.Machine.execSdaHold s
  | .sdaRelease => Sys2Proof.Machine.execSdaRelease s
  | .sclHold => Sys2Proof.Machine.execSclHold s
  | .sclRelease => Sys2Proof.Machine.execSclRelease s
  | .sclWait => Sys2Proof.Machine.execSclWait s
  | .delayFull => Sys2Proof.Machine.execDelayFull s
  | .delayHalf => Sys2Proof.Machine.execDelayHalf s
  | .sdaPut => Sys2Proof.Machine.execSdaPut s
  | .sdaGet => Sys2Proof.Machine.execSdaGet s
  | .ackGet => Sys2Proof.Machine.execAckGet s
  | .bindLatch => Sys2Proof.Machine.execBindLatch s
  | .endUop => Sys2Proof.Machine.execEndUop s

end Sys2Proof.Machine
end

