-- ==== Sys2Proof/Machine/Fetch.lean ====
section
/-! DEFINITION. The micro-programs (spec/30_encoding.md rule R66) and the fetch of the current uop. They are constants
(R51): there is no instruction memory. Also what makes a given uop or command the next one to run. -/

namespace Sys2Proof.Machine

/-- TOGGLE, one clock pulse (R105). -/
def toggle : List UopCode := [Uop.sclRelease, Uop.sclWait, Uop.delayFull, Uop.sclHold, Uop.delayFull]

/-- `n` copies of a list of uops, one after the other. -/
def times : Nat → List UopCode → List UopCode
  | 0, _ => []
  | n + 1, us => us ++ times n us

/-- The uops of START (R110). -/
def progStart : List UopCode :=
  [Uop.sdaRelease, Uop.sclRelease, Uop.sclWait, Uop.delayFull, Uop.sdaHold, Uop.delayFull, Uop.sclHold, Uop.endUop]

/-- The uops of STOP (R112). -/
def progStop : List UopCode :=
  [Uop.sdaHold, Uop.sclRelease, Uop.sclWait, Uop.delayFull, Uop.sdaRelease, Uop.endUop]

/-- The uops of WRITE (R120). -/
def progWrite : List UopCode :=
  times 8 (Uop.sdaPut :: toggle) ++
  [Uop.sdaRelease, Uop.sclRelease, Uop.sclWait, Uop.delayFull, Uop.ackGet, Uop.sclHold, Uop.sdaHold, Uop.endUop]

/-- The uops of one received bit (R130). -/
def readBit : List UopCode :=
  [Uop.sclRelease, Uop.sclWait, Uop.delayHalf, Uop.sdaGet, Uop.delayHalf, Uop.sclHold]

/-- The uops of READ with `last` = 0 (ACK) and `last` = 1 (NACK) (R130). -/
def progRead (last : Bool) : List UopCode :=
  [Uop.sdaRelease, Uop.delayFull] ++ times 8 readBit ++
  (if last then Uop.sdaRelease :: toggle ++ [Uop.endUop]
   else Uop.sdaHold :: toggle ++ [Uop.sdaRelease, Uop.endUop])

/-- The uops of BIND (R80). -/
def progBind : List UopCode := [Uop.bindLatch, Uop.endUop]

/-- `prog(op, last)` (R66); an `op` that is no command's opcode has no micro-program. -/
def prog (op : Opcode) (last : Bool) : List UopCode :=
  if op = Opc.start then progStart
  else if op = Opc.stop then progStop
  else if op = Opc.write then progWrite
  else if op = Opc.read then progRead last
  else if op = Opc.bind then progBind
  else []

/-- `prog(op, last)[upc]`, the uop to execute (R28). -/
def fetchUop (s : State) : Option UopCode := (prog s.op s.last)[s.upc.toNat]?

/-! ### Making an instruction the next one to run (log 8) -/

/-- A place of each uop in the micro-programs: `op`, `last` and `upc`. A command has none. -/
def uopPlace : Instr → Option (Opcode × Bool × Upc)
  | .sdaRelease => some (Opc.start, false, 0#6)
  | .sclRelease => some (Opc.start, false, 1#6)
  | .sclWait => some (Opc.start, false, 2#6)
  | .delayFull => some (Opc.start, false, 3#6)
  | .sclHold => some (Opc.start, false, 6#6)
  | .sdaHold => some (Opc.stop, false, 0#6)
  | .sdaPut => some (Opc.write, false, 0#6)
  | .ackGet => some (Opc.write, false, 52#6)
  | .delayHalf => some (Opc.read, false, 4#6)
  | .sdaGet => some (Opc.read, false, 5#6)
  | .bindLatch => some (Opc.bind, false, 0#6)
  | .endUop => some (Opc.bind, false, 1#6)
  | .start | .stop | .write _ | .read _ | .bind _ _ => none

/-- Binds the lines to bits 0 and 1 if the block is not bound yet: every command but BIND needs it (R173). -/
def State.ensureBound (s : State) : State :=
  if s.bound then s else { s with bound := true, sdaBit := 0#3, sclBit := 1#3 }

/-- No reset at the coming edge, and `w` presented on the command port if `valid`; `pin_i` as it was. -/
def State.present (s : State) (valid : Bool) (w : CmdWord) : State :=
  s.withPortIn ⟨false, valid, w, s.portIn.pin⟩

/-- The block idle, with the command word `w` presented. -/
def State.presentCommand (s : State) (w : CmdWord) : State := { s.present true w with busy := false }

/-- The block running, at index `upc` of the micro-program of `op` and `last`, no reset at the coming edge. -/
def State.atUop (s : State) (place : Opcode × Bool × Upc) : State :=
  { s.present false 0#12 with busy := true, op := place.1, last := place.2.1, upc := place.2.2 }

/-- Whether the step that runs an instruction needs the binding: all but BIND's word and uops, and END. -/
def needsBinding : Instr → Bool
  | .bind _ _ | .bindLatch | .endUop => false
  | .start | .stop | .write _ | .read _ | .sdaHold | .sdaRelease | .sclHold | .sclRelease | .sclWait
  | .delayFull | .delayHalf | .sdaPut | .sdaGet | .ackGet => true

/-- `s` with the instruction `i` of word `w` as the next one to run. -/
def State.withFetched (s : State) (i : Instr) (w : CmdWord) : State :=
  let s := if needsBinding i then s.ensureBound else s
  match uopPlace i with
  | some place => s.atUop place
  | none => s.presentCommand w

/-- `s` with a word that is no instruction where the next one is fetched: a reserved command word is presented, an
unused uop code is nowhere in the micro-programs, so the block is put where it has no uop. -/
def State.withUnfetchable (s : State) (nbits : Nat) (w : CmdWord) : State :=
  if nbits ≤ 8 then s.atUop (0#4, false, 0#6) else s.presentCommand w

end Sys2Proof.Machine
end

