-- ==== Sys2Proof/Machine/Step.lean ====
section
/-! DEFINITION. One rising edge of `clk` (spec/10_state.md rule R28), and the state in which a given word is the next
to run. -/

namespace Sys2Proof.Machine

/-- An idle block with a command presented: the word is decoded and accepted, or refused (R28, R29, R64). -/
def stepCommand (s : State) : Host.Outcome State Fault Refusal :=
  match decodeCmd s.portIn.cmd with
  | .ok i => afterEdge (exec i s)
  | .error why => .refused (.reservedWord why)

/-- A busy block: the uop `prog(op, last)[upc]` executes (R28). -/
def stepUop (s : State) : Host.Outcome State Fault Refusal :=
  match fetchUop s with
  | none => .fault .noMicroOp
  | some c =>
    match decodeUop c with
    | .ok i => afterEdge (exec i s)
    | .error why => .refused (.reservedWord why)

/-- One step (R28). `rst` wins over everything (R156). -/
def step (s : State) : Host.Outcome State Fault Refusal :=
  if s.portIn.rst then .next s.resetRegs.edge
  else if s.busy then stepUop s
  else if s.portIn.cmdValid then stepCommand s
  else .next s.edge

/-- `s` with the instruction of an opcode-table word as the next one to run (log 8): a command is presented to the
idle block on the command port, a uop is selected by `op`, `last` and `upc`. -/
def State.withFetchWord (s : State) (nbits w : Nat) : State :=
  match decodeTableWord nbits w with
  | some i => s.withFetched i (BitVec.ofNat 12 w)
  | none => s.withUnfetchable nbits (BitVec.ofNat 12 w)

end Sys2Proof.Machine
end

