-- ==== Sys2Proof/Machine/Asm.lean ====
section
/-! DEFINITION. The assembler's spelling of a command (spec/30_encoding.md rule R67). Micro-operations have none: the
host cannot issue them. -/

namespace Sys2Proof.Machine

/-- A hexadecimal digit. -/
def hexDigit (n : Nat) : String :=
  (["0", "1", "2", "3", "4", "5", "6", "7", "8", "9", "A", "B", "C", "D", "E", "F"][n]?).getD ""

/-- A byte in hexadecimal, `0x` before it (R6). -/
def hexByte (v : Byte) : String := "0x" ++ hexDigit (v.toNat / 16) ++ hexDigit (v.toNat % 16)

/-- The accepted spellings of a command, the main one first (R67). -/
def spellings : Instr → List String
  | .start => ["START"]
  | .stop => ["STOP"]
  | .write data => ["WRITE " ++ hexByte data]
  | .read false => ["READ ack", "READ last=0"]
  | .read true => ["READ nack", "READ last=1"]
  | .bind sda scl => ["BIND sda=" ++ hexDigit sda.toNat ++ ", scl=" ++ hexDigit scl.toNat]
  | .sdaHold | .sdaRelease | .sclHold | .sclRelease | .sclWait | .delayFull | .delayHalf | .sdaPut | .sdaGet
  | .ackGet | .bindLatch | .endUop => []

end Sys2Proof.Machine
end

