-- ==== Sys2Proof/Machine/Bus.lean ====
section
/-! DEFINITION. The two wires as seen from outside: line states (spec/10_state.md rule R16), boundary states
(spec/43_start_stop.md rule R111), the reference environment, an ideal open-drain bus (spec/20_memory.md rule R53), and
the start and stop conditions as edges on it. None of it is state of the block. -/

namespace Sys2Proof.Machine

/-- What a line's two bits say (R16). -/
inductive LineState where
  /-- Driven low: output, low. -/
  | held
  /-- Released, the pull-up baseline on. -/
  | released
  /-- Released, the pull-up baseline off: only after reset. -/
  | released0
  /-- Driven high: forbidden, never reached (R17). -/
  | drivenHigh
  deriving DecidableEq, Repr

/-- The line state is read off `DDR` and `PORT`; it is not stored (R16). -/
def State.lineState (s : State) (L : Line) : LineState :=
  match getBit s.ddr (s.bit L), getBit s.port (s.bit L) with
  | true, false => .held
  | false, true => .released
  | false, false => .released0
  | true, true => .drivenHigh

/-- The state of the two lines between two commands (R111). -/
inductive Boundary where
  /-- Both RELEASED0: after reset and BIND. -/
  | b0
  /-- Both RELEASED: after STOP or a WRITE that failed. -/
  | br
  /-- Both HELD: after START or a WRITE that succeeded. -/
  | bh
  /-- SDA RELEASED, SCL HELD: after READ. -/
  | bm
  deriving DecidableEq, Repr

/-- The boundary state the lines are in, if any (R111). -/
def State.boundary (s : State) : Option Boundary :=
  match s.lineState .sda, s.lineState .scl with
  | .released0, .released0 => some .b0
  | .released, .released => some .br
  | .held, .held => some .bh
  | .released, .held => some .bm
  | _, _ => none

/-- `eng_low(L)`: the engine pulls the line low (R53). -/
def State.engLow (s : State) (L : Line) : Bool := getBit s.ddr (s.bit L) && !getBit s.port (s.bit L)

/-- `level(L)` on the ideal bus; bit `bit(L)` of `ext` is `ext_low(L)`: some target pulls the line low (R53). -/
def State.level (s : State) (ext : Byte) (L : Line) : Bool := !(s.engLow L || getBit ext (s.bit L))

/-- The levels the ideal bus puts on `pin_i` (R53). -/
def State.idealPin (s : State) (ext : Byte) : Byte := ~~~((s.ddr &&& ~~~s.port) ||| ext)

/-- The two conditions on the bus (spec/43_start_stop.md, opening paragraph). -/
inductive BusEvent where
  /-- Data high to low while the clock is high. -/
  | startCondition
  /-- Data low to high while the clock is high. -/
  | stopCondition
  deriving DecidableEq, Repr

/-- The condition made between two states of the lines, if any. -/
def busEvent (ext : Byte) (s t : State) : Option BusEvent :=
  if s.level ext .scl && t.level ext .scl then
    match s.level ext .sda, t.level ext .sda with
    | true, false => some .startCondition
    | false, true => some .stopCondition
    | true, true => none
    | false, false => none
  else none

/-- The uops that change `DDR` or `PORT` (R32). -/
def changesLines : Instr → Bool
  | .sdaHold | .sdaRelease | .sclHold | .sclRelease | .sdaPut => true
  | .start | .stop | .write _ | .read _ | .bind _ _ | .sclWait | .delayFull | .delayHalf | .sdaGet | .ackGet
  | .bindLatch | .endUop => false

/-- The state after a uop's part in the lines: that of its meaning if it changes a line, else the same. -/
def lineEffect (c : UopCode) (s : State) : State :=
  match decodeUop c with
  | .ok i =>
    if changesLines i then
      match exec i s with
      | .next t => t
      | .fault _ => s
      | .refused _ => s
    else s
  | .error _ => s

/-- The conditions a list of uops makes on the ideal bus, in order, while the targets pull as `ext` says. -/
def busEvents (ext : Byte) : List UopCode → State → List BusEvent
  | [], _ => []
  | c :: cs, s => (busEvent ext s (lineEffect c s)).toList ++ busEvents ext cs (lineEffect c s)

end Sys2Proof.Machine
end

