-- ==== Sys2Proof/Machine/Txn.lean ====
section
/-! DEFINITION. The transaction layer of spec/46_transactions.md: the two pseudo-instructions as programs the host
runs over the command port. They hold no state in the block (R140); the host's own record is `HostProg`. -/

namespace Sys2Proof.Machine

/-- `(slave << 1) | rw`, the first byte of a transaction (R69, R144). -/
def addrByte (slave : SlaveAddr) (rw : Bool) : Byte := (slave.setWidth 8 <<< 1) ||| (BitVec.ofBool rw).setWidth 8

/-- WRITE_TXN: the commands issued when every byte is acknowledged (R141). -/
def writeTxn (slave : SlaveAddr) (reg : Byte) (data : List Byte) : List Instr :=
  [.start, .write (addrByte slave false), .write reg] ++ data.map .write ++ [.stop]

/-- The READ commands of a read transaction: the last one has `last` = 1 (R142). -/
def readCommands : Nat → List Instr
  | 0 => []
  | 1 => [.read true]
  | n + 2 => .read false :: readCommands (n + 1)

/-- READ_TXN: the commands issued when every byte is acknowledged (R142). -/
def readTxn (slave : SlaveAddr) (reg : Byte) (len : Nat) : List Instr :=
  writeTxn slave reg [] ++ [.start, .write (addrByte slave true)] ++ readCommands len ++ [.stop]

/-- The host's own record while it runs a pseudo-instruction: the commands still to issue, the one running first;
the bytes read; the result, `true` for SUCCESS (R140). -/
structure HostProg where
  todo : List Instr
  buf : List Byte
  result : Option Bool
  deriving DecidableEq, Repr

/-- A host about to run a list of commands. -/
def hostProg (cs : List Instr) : HostProg := ⟨cs, [], if cs.isEmpty then some true else none⟩

/-- Whether a command is a WRITE, the only one whose `rsp_ok` the host branches on (R141, R142). -/
def isWrite : Instr → Bool
  | .write _ => true
  | .start | .stop | .read _ | .bind _ _ | .sdaHold | .sdaRelease | .sclHold | .sclRelease | .sclWait
  | .delayFull | .delayHalf | .sdaPut | .sdaGet | .ackGet | .bindLatch | .endUop => false

/-- Whether a command is a READ, whose byte goes to the buffer (R142). -/
def isRead : Instr → Bool
  | .read _ => true
  | .start | .stop | .write _ | .bind _ _ | .sdaHold | .sdaRelease | .sclHold | .sclRelease | .sclWait
  | .delayFull | .delayHalf | .sdaPut | .sdaGet | .ackGet | .bindLatch | .endUop => false

/-- The host takes the response of the command it issued: a WRITE not acknowledged ends the pseudo-instruction with
FAILURE and nothing more is issued, no STOP and no retry (R143); else the next command, or SUCCESS at the last. -/
def HostProg.respond (h : HostProg) (ok : Bool) (data : Byte) : HostProg :=
  match h.todo with
  | [] => h
  | c :: cs =>
    if isWrite c && !ok then ⟨[], h.buf, some false⟩
    else ⟨cs, if isRead c then h.buf ++ [data] else h.buf, if cs.isEmpty then some true else none⟩

/-- A command's word; a uop has none and gives the reserved word 0 (R64). -/
def commandWord (i : Instr) : CmdWord :=
  match encode i with
  | .cmd w => w
  | .uop _ => 0#12

/-- What the host and the ideal bus present at the coming edge: the command to issue while the block is idle. -/
def HostProg.drive (h : HostProg) (ext : Byte) (s : State) : PortIn :=
  match h.todo with
  | [] => ⟨false, false, 0#12, s.idealPin ext⟩
  | c :: _ => ⟨false, !s.busy, commandWord c, s.idealPin ext⟩

/-- One edge of the block with this host and the ideal bus around it: the host takes the response at the step in
which the command completes (R195). -/
def hostStep (ext : Byte) (h : HostProg) (s : State) : Host.Outcome (HostProg × State) Fault Refusal :=
  match step { s with inputs := [h.drive ext s] } with
  | .next t => .next (if s.busy && !t.busy then h.respond t.rspOk t.rspData else h, t)
  | .fault f => .fault f
  | .refused r => .refused r

end Sys2Proof.Machine
end

