-- ==== Sys2Proof/Safety.lean ====
section
/-! DEFINITION. The terms claims are stated in: legal words, what is unchanged, the open-drain rule, the engine's
invariant, and what a run's environment does. -/

namespace Sys2Proof.Machine

/-! ### Words -/

/-- The legal command words, as R62 and R64 list them. -/
abbrev LegalWord (w : CmdWord) : Prop :=
  w = 0x100#12 ∨ w = 0x200#12 ∨ (0x300 ≤ w.toNat ∧ w.toNat ≤ 0x3FF) ∨ w = 0x400#12 ∨ w = 0x401#12 ∨
  (w.extractLsb' 8 4 = 0x8#4 ∧ w.getLsbD 3 = false ∧ w.getLsbD 7 = false ∧ w.extractLsb' 0 3 ≠ w.extractLsb' 4 3)

/-! ### Frames -/

/-- `upc` has advanced by one (R30). From 63, where no rule says (R8 (c)), nothing is claimed. -/
abbrev UpcAdvanced (s t : State) : Prop := s.upc ≠ 63#6 → t.upc = s.upc + 1#6

/-- In `t`, bit `bit(L)` of `DDR` and `PORT` is (`dir`, `level`) and their other seven bits are as in `s`. -/
abbrev LineWritten (L : Line) (dir level : Bool) (s t : State) : Prop :=
  ∀ b : BitPos,
    getBit t.ddr b = (if b = s.bit L then dir else getBit s.ddr b) ∧
    getBit t.port b = (if b = s.bit L then level else getBit s.port b)

/-- `t` differs from `s` in `DDR`, `PORT` and `upc` at most. -/
abbrev OnlyLinesAndUpc (s t : State) : Prop := t = { s with ddr := t.ddr, port := t.port, upc := t.upc }

/-- `phase` after the completion of the command in register `op` (R31): its five cases. -/
abbrev PhaseWritten (s t : State) : Prop :=
  (s.op = 0x1#4 → t.phase = .startSent) ∧ (s.op = 0x2#4 → t.phase = .idle) ∧
  (s.op = 0x3#4 → t.phase = .byteTransferWrite) ∧ (s.op = 0x4#4 → t.phase = .byteTransferRead) ∧
  (s.op = 0x8#4 → t.phase = s.phase)

/-- All seventeen registers are the same; only the outside world has moved on. -/
abbrev SameRegisters (s t : State) : Prop := t = { s with inputs := t.inputs, tick := t.tick }

/-- The binding is the same. -/
abbrev SameBinding (s t : State) : Prop := t.bound = s.bound ∧ t.sdaBit = s.sdaBit ∧ t.sclBit = s.sclBit

/-- The bits of the bank that carry no line are the same. -/
abbrev OtherPinsSame (s t : State) : Prop :=
  ∀ b : BitPos, b ≠ s.sdaBit → b ≠ s.sclBit → getBit t.ddr b = getBit s.ddr b ∧ getBit t.port b = getBit s.port b

/-! ### Invariants -/

/-- No pin of the bank is driven high (R17, R190). -/
abbrev NeverDrivenHigh (s : State) : Prop := s.ddr &&& s.port = 0#8

/-- What holds of every state a run reaches. -/
structure Inv (s : State) : Prop where
  /-- R17. -/
  openDrain : NeverDrivenHigh s
  /-- R12: the two positions differ. -/
  positionsDiffer : s.bound = true → s.sdaBit ≠ s.sclBit
  /-- R22, R51: a running command has a uop at `upc`. -/
  uopThere : s.busy = true → (fetchUop s).isSome = true
  /-- R11, R82: before the binding only BIND runs. -/
  bindFirst : s.busy = true → s.bound = false → s.op = Opc.bind
  /-- R80: BIND's two positions differ. -/
  bindPositions : s.busy = true → s.op = Opc.bind → sdaField s.sh ≠ sclField s.sh
  /-- R13, R43: the bits of the bank that carry no line keep their reset value 0. -/
  otherPinsZero : ∀ b : BitPos, (s.bound = true → b ≠ s.sdaBit ∧ b ≠ s.sclBit) →
    getBit s.ddr b = false ∧ getBit s.port b = false
  /-- R23: no delay in progress, no count. -/
  delayIdle : s.dlyRun = false → s.dly = 0
  /-- R23, R102: a count is between 1 and the length less one, and only inside its delay uop. -/
  delayRunning : s.dlyRun = true → s.busy = true ∧ 1 ≤ s.dly ∧
    ((fetchUop s = some Uop.delayFull ∧ s.dly < Config.delayFullCycles) ∨
     (fetchUop s = some Uop.delayHalf ∧ s.dly < Config.delayHalfCycles))
  /-- R25: no response while a command runs. -/
  noResponseWhileBusy : s.busy = true → s.rspValid = false
  /-- R21: `nack` is set only by a WRITE that has failed. -/
  nackIsAFailedWrite : s.nack = true → s.busy = false ∧ s.op = Opc.write
  /-- R33: `rsp_ok` is `!nack`. -/
  okIsNotNack : s.rspValid = true → s.rspOk = !s.nack

/-! ### The outside world along a run -/

/-- The levels on the input ports at the edge `k` edges from now. -/
def State.portInAt (s : State) (k : Nat) : PortIn :=
  match s.inputs[k]? with
  | some p => p
  | none => ⟨Config.freeRst (s.tick + k), Config.freeCmdValid (s.tick + k), Config.freeCmd (s.tick + k),
      Config.freePin (s.tick + k)⟩

/-- The level `Env.pin(bit(L))` at the edge `k` edges from now, for the binding of `s`. -/
def State.pinAt (s : State) (L : Line) (k : Nat) : Bool := getBit (s.portInAt k).pin (s.bit L)

/-- No reset at the next `n` edges. -/
abbrev NoReset (s : State) (n : Nat) : Prop := ∀ k < n, (s.portInAt k).rst = false

/-- The clock reads low at the `d` polls of a wait that starts at edge `e`, and high at the next one. -/
abbrev WaitAnswered (s : State) (e d : Nat) : Prop :=
  (∀ j < d, s.pinAt .scl (e + j) = false) ∧ s.pinAt .scl (e + d) = true

/-- How many low polls the first `i` waits of a command have met, the `j`-th one `d j` of them. -/
def waited (d : Nat → Nat) : Nat → Nat
  | 0 => 0
  | i + 1 => waited d i + d i

/-- An idle block with the command word `w` presented at the coming edge. -/
abbrev Presented (w : CmdWord) (s : State) : Prop :=
  s.busy = false ∧ s.dlyRun = false ∧ s.portIn.cmdValid = true ∧ s.portIn.cmd = w

/-- The binding is made, on two different pins. -/
abbrev Bound (s : State) : Prop := s.bound = true ∧ s.sdaBit ≠ s.sclBit

/-- `n` steps of the machine, as the host runs them. -/
abbrev runSteps (n : Nat) (s : State) : Host.Outcome State Fault Refusal := Host.Core.run Sys2Proof.core n s

/-- `n` executions of one instruction, one after the other. -/
def execTimes (i : Instr) : Nat → State → Host.Outcome State Fault Refusal
  | 0, s => .next s
  | n + 1, s =>
    match exec i s with
    | .next t => execTimes i n t
    | .fault f => .fault f
    | .refused r => .refused r

/-- One execution of SDA_GET for each level in the list, which the environment gives on `PIN[sda_bit]`. -/
def sampleBits : List Byte → State → Host.Outcome State Fault Refusal
  | [], s => .next s
  | p :: ps, s =>
    match exec .sdaGet (s.withPortIn ⟨false, false, 0#12, p⟩) with
    | .next t => sampleBits ps t
    | .fault f => .fault f
    | .refused r => .refused r

end Sys2Proof.Machine
end

