-- ==== Sys2Proof/Certificates/Slice0/Obligations.lean ====
section
/-! DEFINITION. The statements for the provers. Each docstring names the rule of spec/ it formalises. Most rules of this
spec are its own decisions (spec/92_eei_decisions.md); the docstring then names the decision. -/

open Sys2Proof Sys2Proof.Machine

/-! ### Encoding -/

/-- Decoding the word of a well-formed instruction gives it back, for every instruction and operand (R62, R65). -/
def Obligations.DecodeEncodeGivesBackEveryInstruction : Prop :=
  ∀ i : Instr, i.WellFormed → decode (encode i) = .ok i

/-- Each word has one meaning: an instruction read from a word is well-formed and encodes to that word (R62, R65). -/
def Obligations.EncodeDecodeGivesBackEveryWord : Prop :=
  ∀ (w : CodeWord) (i : Instr), decode w = .ok i → i.WellFormed ∧ encode i = w

/-- R62: the words of the five commands, for every operand. -/
def Obligations.CommandWordsDecode : Prop :=
  decode (.cmd 0x100#12) = .ok .start ∧ decode (.cmd 0x200#12) = .ok .stop ∧
  (∀ data : Byte, decode (.cmd (0x300#12 ||| data.setWidth 12)) = .ok (.write data)) ∧
  decode (.cmd 0x400#12) = .ok (.read false) ∧ decode (.cmd 0x401#12) = .ok (.read true) ∧
  (∀ sda scl : BitPos, sda ≠ scl →
    decode (.cmd (0x800#12 ||| (scl.setWidth 12 <<< 4) ||| sda.setWidth 12)) = .ok (.bind sda scl))

/-- R65: the uop codes; 0xC to 0xF are unused and in no micro-program, so they are never fetched. -/
def Obligations.UopCodesDecode : Prop :=
  decode (.uop 0x0#4) = .ok .sdaHold ∧ decode (.uop 0x1#4) = .ok .sdaRelease ∧
  decode (.uop 0x2#4) = .ok .sclHold ∧ decode (.uop 0x3#4) = .ok .sclRelease ∧
  decode (.uop 0x4#4) = .ok .sclWait ∧ decode (.uop 0x5#4) = .ok .delayFull ∧
  decode (.uop 0x6#4) = .ok .delayHalf ∧ decode (.uop 0x7#4) = .ok .sdaPut ∧
  decode (.uop 0x8#4) = .ok .sdaGet ∧ decode (.uop 0x9#4) = .ok .ackGet ∧
  decode (.uop 0xA#4) = .ok .bindLatch ∧ decode (.uop 0xB#4) = .ok .endUop ∧
  (∀ c : UopCode, 0xC ≤ c.toNat → decode (.uop c) = .error .unusedUop) ∧
  (∀ (op : Opcode) (last : Bool), ∀ c ∈ prog op last, c.toNat < 0xC)

/-- R64: the legal words are those listed, and an idle block presented any other word has no next state
(spec decision D14). -/
def Obligations.ReservedWordsAreRefused : Prop :=
  (∀ w : CmdWord, (∃ i, decode (.cmd w) = .ok i) ↔ LegalWord w) ∧
  (∀ s : State, s.portIn.rst = false → s.busy = false → s.portIn.cmdValid = true → ¬ LegalWord s.portIn.cmd →
    ∃ why, step s = .refused (.reservedWord why))

/-- R66: the micro-programs, by index, as the tables of R110, R112, R120, R130 and R80 give them (decision D4). -/
def Obligations.MicroProgramTable : Prop :=
  (∀ last, prog 0x1#4 last = [Uop.sdaRelease, Uop.sclRelease, Uop.sclWait, Uop.delayFull, Uop.sdaHold, Uop.delayFull,
    Uop.sclHold, Uop.endUop]) ∧
  (∀ last, prog 0x2#4 last = [Uop.sdaHold, Uop.sclRelease, Uop.sclWait, Uop.delayFull, Uop.sdaRelease, Uop.endUop]) ∧
  (∀ last, (prog 0x3#4 last).length = 56 ∧
    (∀ i < 8, ((prog 0x3#4 last).drop (6 * i)).take 6 =
      [Uop.sdaPut, Uop.sclRelease, Uop.sclWait, Uop.delayFull, Uop.sclHold, Uop.delayFull]) ∧
    (prog 0x3#4 last).drop 48 = [Uop.sdaRelease, Uop.sclRelease, Uop.sclWait, Uop.delayFull, Uop.ackGet, Uop.sclHold,
      Uop.sdaHold, Uop.endUop]) ∧
  (∀ last, (prog 0x4#4 last).take 2 = [Uop.sdaRelease, Uop.delayFull] ∧
    (∀ i < 8, ((prog 0x4#4 last).drop (2 + 6 * i)).take 6 =
      [Uop.sclRelease, Uop.sclWait, Uop.delayHalf, Uop.sdaGet, Uop.delayHalf, Uop.sclHold])) ∧
  (prog 0x4#4 false).drop 50 = [Uop.sdaHold, Uop.sclRelease, Uop.sclWait, Uop.delayFull, Uop.sclHold, Uop.delayFull,
    Uop.sdaRelease, Uop.endUop] ∧
  (prog 0x4#4 true).drop 50 = [Uop.sdaRelease, Uop.sclRelease, Uop.sclWait, Uop.delayFull, Uop.sclHold, Uop.delayFull,
    Uop.endUop] ∧
  (∀ last, prog 0x8#4 last = [Uop.bindLatch, Uop.endUop])

/-! ### Reset, the step, the ports -/

/-- R171: the state after reset; both lines are RELEASED0, boundary state B0 (decision D12). -/
def Obligations.ResetHoldsTheTableValues : Prop :=
  State.reset.bound = false ∧ State.reset.sdaBit = 0#3 ∧ State.reset.sclBit = 0#3 ∧ State.reset.ddr = 0x00#8 ∧
  State.reset.port = 0x00#8 ∧ State.reset.busy = false ∧ State.reset.op = 0#4 ∧ State.reset.last = false ∧
  State.reset.sh = 0x00#8 ∧ State.reset.nack = false ∧ State.reset.upc = 0#6 ∧ State.reset.dly = 0 ∧
  State.reset.dlyRun = false ∧ State.reset.phase = .idle ∧ State.reset.rspValid = false ∧
  State.reset.rspOk = false ∧ State.reset.rspData = 0x00#8 ∧
  State.reset.lineState .sda = .released0 ∧ State.reset.lineState .scl = .released0 ∧
  State.reset.boundary = some .b0

/-- R170: at a step with `rst = 1` every register takes its reset value, whatever else is presented and whatever is
running, and `cmd_ready` is 0 (decision D12). -/
def Obligations.ResetStepSetsEveryRegister : Prop :=
  ∀ s : State, s.portIn.rst = true →
    s.cmdReady = false ∧ ∃ t, step s = .next t ∧ SameRegisters State.reset t

/-- Reset in the middle of a command releases both lines in one step (R172): no pin is an output afterwards, and if the
block held the data line low with the clock released and no target pulls, the data line rises with the clock high, a
stop condition. The two lines are named by the binding that the reset loses. -/
def Obligations.ResetReleasesBothLines : Prop :=
  ∀ s t : State, s.portIn.rst = true → step s = .next t →
    (∀ b, getBit t.ddr b = false) ∧
    (∀ ext, getBit ext s.sdaBit = false → getBit ext s.sclBit = false → s.lineState .sda = .held →
      s.lineState .scl = .released →
      busEvent ext s { t with sdaBit := s.sdaBit, sclBit := s.sclBit } = some .stopCondition)

/-- R28: one step. A reset; an idle edge with no command, which changes no register; a command word that decodes; a
running uop. Around the decoded instruction a step only moves the outside world on to its next edge, the model's own
record of it (log 2). -/
def Obligations.StepRunsTheDecodedInstruction : Prop :=
  ∀ s : State,
    (s.portIn.rst = true → step s = .next s.resetRegs.edge) ∧
    (s.portIn.rst = false → s.busy = false → s.portIn.cmdValid = false → step s = .next s.edge) ∧
    (s.portIn.rst = false → s.busy = false → s.portIn.cmdValid = true →
      ∀ i, decode (.cmd s.portIn.cmd) = .ok i → step s = afterEdge (exec i s)) ∧
    (s.portIn.rst = false → s.busy = true →
      ∀ c i, (prog s.op s.last)[s.upc.toNat]? = some c → decode (.uop c) = .ok i → step s = afterEdge (exec i s)) ∧
    (∀ t : State, afterEdge (.next t) = .next { t with inputs := t.inputs.tail, tick := t.tick + 1 })

/-- R29: what accepting a command does, and when it is refused (decisions D14, D20). -/
def Obligations.AcceptingACommand : Prop :=
  ∀ s : State, s.portIn.rst = false → s.busy = false → s.portIn.cmdValid = true →
    (¬ LegalWord s.portIn.cmd → ∃ r, step s = .refused r) ∧
    (s.bound = false → s.portIn.cmd.extractLsb' 8 4 ≠ 0x8#4 → ∃ r, step s = .refused r) ∧
    (LegalWord s.portIn.cmd → s.bound = true ∨ s.portIn.cmd.extractLsb' 8 4 = 0x8#4 →
      ∃ t, step s = .next t ∧
        SameRegisters { s with
          op := s.portIn.cmd.extractLsb' 8 4
          sh := s.portIn.cmd.extractLsb' 0 8
          last := s.portIn.cmd.getLsbD 0
          nack := false
          upc := 0#6
          busy := true
          rspValid := false } t)

/-- The five commands complete their acceptance: each answers a next state with the opcode, the argument and `last` of
its word latched and all else as R29 says. WRITE, READ, START and STOP need the binding, BIND does not. -/
def Obligations.EveryCommandIsAccepted : Prop :=
  ∀ s : State,
    (s.bound = true →
      exec .start s = .next { s with op := 0x1#4, sh := 0x00#8, last := false, nack := false, upc := 0#6, busy := true, rspValid := false } ∧
      exec .stop s = .next { s with op := 0x2#4, sh := 0x00#8, last := false, nack := false, upc := 0#6, busy := true, rspValid := false } ∧
      (∀ data : Byte, exec (.write data) s =
        .next { s with op := 0x3#4, sh := data, last := data.getLsbD 0, nack := false, upc := 0#6, busy := true, rspValid := false }) ∧
      (∀ last : Bool, exec (.read last) s =
        .next { s with op := 0x4#4, sh := if last then 0x01#8 else 0x00#8, last := last, nack := false, upc := 0#6, busy := true, rspValid := false })) ∧
    (∀ sda scl : BitPos, sda ≠ scl →
      exec (.bind sda scl) s =
        .next { s with op := 0x8#4, sh := (scl.setWidth 8 <<< 4) ||| sda.setWidth 8, last := sda.getLsbD 0, nack := false, upc := 0#6, busy := true, rspValid := false })

/-- R82: while `bound = 0` accepting START, STOP, WRITE or READ has no next state (decision D14). -/
def Obligations.CommandsBeforeBindAreRefused : Prop :=
  ∀ s : State, s.bound = false →
    exec .start s = .refused .commandBeforeBind ∧ exec .stop s = .refused .commandBeforeBind ∧
    (∀ data, exec (.write data) s = .refused .commandBeforeBind) ∧
    (∀ last, exec (.read last) s = .refused .commandBeforeBind)

/-- R26: the outputs are the registers; a command is accepted exactly where `cmd_valid & cmd_ready`, that is, `busy`
rises (decision D1). -/
def Obligations.OutputsAndReady : Prop :=
  (∀ s : State,
    s.cmdReady = (!s.busy && !s.portIn.rst) ∧ s.outputs.busy = s.busy ∧ s.outputs.rspValid = s.rspValid ∧
    s.outputs.rspOk = s.rspOk ∧ s.outputs.rspData = s.rspData ∧ s.outputs.ddrO = s.ddr ∧ s.outputs.portO = s.port ∧
    (s.outputs.phase = 0#2 ↔ s.phase = .idle) ∧ (s.outputs.phase = 1#2 ↔ s.phase = .startSent) ∧
    (s.outputs.phase = 2#2 ↔ s.phase = .byteTransferWrite) ∧
    (s.outputs.phase = 3#2 ↔ s.phase = .byteTransferRead)) ∧
  (∀ s t : State, step s = .next t → s.busy = false →
    (t.busy = true ↔ (s.portIn.cmdValid && s.cmdReady) = true))

/-- R15: a step reads only `PIN[scl_bit]`, in SCL_WAIT, and `PIN[sda_bit]`, in SDA_GET and ACK_GET: two steps whose
inputs agree but for the other bits of `pin_i` answer the same. -/
def Obligations.PinIsReadOnlyWhereStated : Prop :=
  ∀ (s : State) (p q : PortIn), p.rst = q.rst → p.cmdValid = q.cmdValid → p.cmd = q.cmd →
    (s.busy = true → fetchUop s = some 0x4#4 → getBit p.pin s.sclBit = getBit q.pin s.sclBit) →
    (s.busy = true → fetchUop s = some 0x8#4 ∨ fetchUop s = some 0x9#4 →
      getBit p.pin s.sdaBit = getBit q.pin s.sdaBit) →
    step (s.withPortIn p) = step (s.withPortIn q)

/-- R156: `rst` wins over everything; a command presented while busy is not accepted and not queued, so the command port
has no influence on the step; presented at an idle step it is taken; a micro-program has at most one ACK_GET, and only
WRITE's has one (decision D21). -/
def Obligations.BusyBlockIgnoresTheCommandPort : Prop :=
  (∀ (s : State) (p q : PortIn), p.rst = true → q.rst = true → step (s.withPortIn p) = step (s.withPortIn q)) ∧
  (∀ (s : State) (p q : PortIn), s.busy = true → p.rst = q.rst → p.pin = q.pin →
    step (s.withPortIn p) = step (s.withPortIn q)) ∧
  (∀ s t : State, step s = .next t → s.portIn.rst = false → s.busy = false → s.portIn.cmdValid = true →
    t.busy = true) ∧
  (∀ (op : Opcode) (last : Bool), (prog op last).count 0x9#4 = if op = 0x3#4 then 1 else 0)

/-! ### Line control -/

/-- R85, R86: `hold` and `release_regs` write the two bits of one line, in one step, whatever they were (decision D5). -/
def Obligations.HoldAndReleaseWriteOneLine : Prop :=
  ∀ (s : State) (L : Line),
    (LineWritten L true false s (s.hold L) ∧ (s.hold L).lineState L = .held ∧
      s.hold L = { s with ddr := (s.hold L).ddr, port := (s.hold L).port }) ∧
    (LineWritten L false true s (s.releaseRegs L) ∧ (s.releaseRegs L).lineState L = .released ∧
      s.releaseRegs L = { s with ddr := (s.releaseRegs L).ddr, port := (s.releaseRegs L).port })

/-- R87: SDA_HOLD. With the clock high and the data line reading high it makes the start-condition edge. -/
def Obligations.SdaHoldHoldsTheDataLine : Prop :=
  ∀ s : State, ∃ t, exec .sdaHold s = .next t ∧
    LineWritten .sda true false s t ∧ UpcAdvanced s t ∧ OnlyLinesAndUpc s t ∧
    (s.lineState .sda = .held → t = { s with upc := t.upc }) ∧
    (∀ ext, s.sdaBit ≠ s.sclBit → s.level ext .scl = true → s.level ext .sda = true →
      busEvent ext s t = some .startCondition)

/-- R88: SDA_RELEASE, without a wait. With the clock high and the data line HELD it makes the stop-condition edge, where
no target holds the data line low. -/
def Obligations.SdaReleaseReleasesTheDataLine : Prop :=
  ∀ s : State, ∃ t, exec .sdaRelease s = .next t ∧
    LineWritten .sda false true s t ∧ UpcAdvanced s t ∧ OnlyLinesAndUpc s t ∧
    (s.lineState .sda = .released → t = { s with upc := t.upc }) ∧
    (∀ ext, s.sdaBit ≠ s.sclBit → s.level ext .scl = true → s.lineState .sda = .held →
      getBit ext s.sdaBit = false → busEvent ext s t = some .stopCondition)

/-- R89: SCL_HOLD. On a line already HELD it changes nothing but `upc`. -/
def Obligations.SclHoldHoldsTheClockLine : Prop :=
  ∀ s : State, ∃ t, exec .sclHold s = .next t ∧
    LineWritten .scl true false s t ∧ UpcAdvanced s t ∧ OnlyLinesAndUpc s t ∧
    (s.lineState .scl = .held → t = { s with upc := t.upc })

/-- R90: SCL_RELEASE; it reads nothing, and in every micro-program the next uop is SCL_WAIT (decision D4). -/
def Obligations.SclReleaseReleasesTheClockLine : Prop :=
  (∀ s : State, ∃ t, exec .sclRelease s = .next t ∧
    LineWritten .scl false true s t ∧ UpcAdvanced s t ∧ OnlyLinesAndUpc s t) ∧
  (∀ (s : State) (p : PortIn), ∃ t, exec .sclRelease s = .next t ∧
    exec .sclRelease (s.withPortIn p) = .next (t.withPortIn p)) ∧
  (∀ (op : Opcode) (last : Bool) (u : Nat), (prog op last)[u]? = some 0x3#4 → (prog op last)[u + 1]? = some 0x4#4)

/-- R91: SCL_WAIT leaves at the first high reading of the clock line and repeats, changing no register, at a low one;
while every reading is low and no reset comes it repeats for ever with `busy` = 1, and a reset ends it (decisions D16,
D25; spec/93_implementation_defined.md U9). -/
def Obligations.SclWaitWaitsForAHighClock : Prop :=
  (∀ s : State,
    (getBit s.portIn.pin s.sclBit = true →
      ∃ t, exec .sclWait s = .next t ∧ UpcAdvanced s t ∧ t = { s with upc := t.upc }) ∧
    (getBit s.portIn.pin s.sclBit = false → exec .sclWait s = .next s)) ∧
  (∀ (s : State) (n : Nat), s.busy = true → fetchUop s = some 0x4#4 → NoReset s n →
    (∀ k < n, s.pinAt .scl k = false) →
    ∃ t, runSteps n s = .next t ∧ SameRegisters s t ∧ t.busy = true ∧
      (t.portIn.rst = true → ∃ r, step t = .next r ∧ SameRegisters State.reset r))

/-! ### Delays -/

/-- R102: the delay counter, for both delay uops, from every state (decision D11). -/
def Obligations.DelayCounterRule : Prop :=
  ∀ (i : Instr) (n : Nat),
    (i = .delayFull ∧ n = Config.delayFullCycles) ∨ (i = .delayHalf ∧ n = Config.delayHalfCycles) →
    1 ≤ n ∧
    (∀ (s : State) (cnt : Nat), cnt = (if s.dlyRun = false then n else s.dly) →
      (cnt ≤ 1 → ∃ t, exec i s = .next t ∧ UpcAdvanced s t ∧ t = { s with dly := 0, dlyRun := false, upc := t.upc }) ∧
      (1 < cnt → exec i s = .next { s with dly := cnt - 1, dlyRun := true })) ∧
    (∀ s : State, s.dly = 0 → s.dlyRun = false →
      (∀ k < n, execTimes i k s = .next (if k = 0 then s else { s with dly := n - k, dlyRun := true })) ∧
      ∃ t, execTimes i n s = .next t ∧ UpcAdvanced s t ∧ t = { s with upc := t.upc })

/-! ### Data -/

/-- R121: SDA_PUT puts `sh[7]` on the data line and shifts; executed eight times it sends the byte MSB-first and leaves
`sh = 0x00`. -/
def Obligations.SdaPutSendsMsbFirst : Prop :=
  ∀ s : State,
    (∃ t, exec .sdaPut s = .next t ∧
      LineWritten .sda (!s.sh.getLsbD 7) (s.sh.getLsbD 7) s t ∧
      t.sh.getLsbD 0 = false ∧ (∀ b < 7, t.sh.getLsbD (b + 1) = s.sh.getLsbD b) ∧ UpcAdvanced s t ∧
      t = { s with ddr := t.ddr, port := t.port, sh := t.sh, upc := t.upc }) ∧
    (∀ k < 8, ∃ u, execTimes .sdaPut (k + 1) s = .next u ∧
      u.lineState .sda = if s.sh.getLsbD (7 - k) then .released else .held) ∧
    (∃ u, execTimes .sdaPut 8 s = .next u ∧ u.sh = 0x00#8)

/-- R131: SDA_GET shifts one sample of the data line into bit 0; executed eight times it assembles the byte MSB-first and
nothing of the old `sh` is left. -/
def Obligations.SdaGetAssemblesMsbFirst : Prop :=
  (∀ s : State, ∃ t, exec .sdaGet s = .next t ∧
    t.sh.getLsbD 0 = getBit s.portIn.pin s.sdaBit ∧ (∀ b < 7, t.sh.getLsbD (b + 1) = s.sh.getLsbD b) ∧
    UpcAdvanced s t ∧ t = { s with sh := t.sh, upc := t.upc }) ∧
  (∀ (s : State) (ps : List Byte), ps.length = 8 → ∃ t, sampleBits ps s = .next t ∧
    ∀ k < 8, ∀ p, ps[k]? = some p → t.sh.getLsbD (7 - k) = getBit p s.sdaBit)

/-- R122: ACK_GET. A low sample goes on with `nack` = 0; a high one raises NotAcknowledged: the command ends in this same
step with `rsp_ok` = 0 and `nack` = 1, and the lines stay. That `rsp_data` is then `sh` is the model's choice of log 6: it
follows R31, while U4 (spec/93_implementation_defined.md) calls the value after a WRITE "any value". -/
def Obligations.AckGetSamplesTheAcknowledgment : Prop :=
  ∀ s : State,
    (getBit s.portIn.pin s.sdaBit = false →
      ∃ t, exec .ackGet s = .next t ∧ UpcAdvanced s t ∧ t = { s with nack := false, upc := t.upc }) ∧
    (getBit s.portIn.pin s.sdaBit = true →
      ∃ t, exec .ackGet s = .next t ∧ PhaseWritten s t ∧
        t = { s with nack := true, busy := false, rspValid := true, rspOk := false, rspData := s.sh, phase := t.phase })

/-! ### Binding and completion -/

/-- R81: BIND_LATCH sets an unset binding from `sh` and leaves a set one (decision D13). -/
def Obligations.BindLatchSetsTheBindingOnce : Prop :=
  ∀ s : State,
    (s.bound = false →
      ∃ t, exec .bindLatch s = .next t ∧ UpcAdvanced s t ∧
        t = { s with bound := true, sdaBit := s.sh.extractLsb' 0 3, sclBit := s.sh.extractLsb' 4 3, upc := t.upc }) ∧
    (s.bound = true → ∃ t, exec .bindLatch s = .next t ∧ UpcAdvanced s t ∧ t = { s with upc := t.upc })

/-- R31: `complete(ok)`, by END with ok = 1 and by a failing ACK_GET with ok = 0; no line register changes; only WRITE's
micro-program has an ACK_GET (decisions D3, D15). That `rsp_data` is `sh` after a command other than READ is the model's
choice of log 6: it follows R31, while U4 (spec/93_implementation_defined.md) calls that value "any value". -/
def Obligations.CompletionWritesTheResponse : Prop :=
  ∀ s : State,
    (∃ t, exec .endUop s = .next t ∧ PhaseWritten s t ∧
      t = { s with busy := false, rspValid := true, rspOk := true, rspData := s.sh, phase := t.phase }) ∧
    (getBit s.portIn.pin s.sdaBit = true →
      ∃ t, exec .ackGet s = .next t ∧ PhaseWritten s t ∧
        t = { s with nack := true, busy := false, rspValid := true, rspOk := false, rspData := s.sh, phase := t.phase }) ∧
    (∀ (op : Opcode) (last : Bool), op ≠ 0x3#4 → 0x9#4 ∉ prog op last)

/-! ### The whole machine -/

/-- The column "written by" of R10's table and the frame rule R32: over all instructions, a register differs after an
instruction only if that instruction is one of its writers. -/
def Obligations.RegistersHaveTheirWritersOnly : Prop :=
  ∀ (i : Instr) (s t : State), exec i s = .next t →
    (SameBinding s t ∨ i = .bindLatch) ∧
    ((t.ddr = s.ddr ∧ t.port = s.port) ∨ i ∈ [.sdaHold, .sdaRelease, .sclHold, .sclRelease, .sdaPut]) ∧
    (t.busy = s.busy ∨ i.isCommand = true ∨ i = .endUop ∨ i = .ackGet) ∧
    ((t.op = s.op ∧ t.last = s.last) ∨ i.isCommand = true) ∧
    (t.sh = s.sh ∨ i.isCommand = true ∨ i = .sdaPut ∨ i = .sdaGet) ∧
    (t.nack = s.nack ∨ i.isCommand = true ∨ i = .ackGet) ∧
    (t.upc = s.upc ∨ i ≠ .endUop) ∧
    ((t.dly = s.dly ∧ t.dlyRun = s.dlyRun) ∨ i = .delayFull ∨ i = .delayHalf) ∧
    ((t.phase = s.phase ∧ t.rspOk = s.rspOk ∧ t.rspData = s.rspData) ∨ i = .endUop ∨ i = .ackGet) ∧
    (t.rspValid = s.rspValid ∨ i.isCommand = true ∨ i = .endUop ∨ i = .ackGet) ∧
    (t.inputs = s.inputs ∧ t.tick = s.tick) ∧
    (i = .delayFull ∨ i = .delayHalf → t = { s with dly := t.dly, dlyRun := t.dlyRun, upc := t.upc })

/-- R190, R17: no step leaves a line driven high, from any state in which no pin is (decision D5). Pins are all eight of
the bank, the two lines' among them. -/
def Obligations.OpenDrainKeptByEveryStep : Prop :=
  ∀ s t : State, NeverDrivenHigh s → step s = .next t →
    NeverDrivenHigh t ∧ t.lineState .sda ≠ .drivenHigh ∧ t.lineState .scl ≠ .drivenHigh

/-- No pin is driven high after reset (R17). -/
def Obligations.OpenDrainHoldsAtReset : Prop := NeverDrivenHigh State.reset

/-- Every step keeps the engine's invariant (`Inv`: R11, R12, R13, R17, R21, R22, R23, R25, R33, R43, R80, R82). -/
def Obligations.InvariantKeptByEveryStep : Prop := ∀ s t : State, Inv s → step s = .next t → Inv t

/-- The invariant holds after reset. -/
def Obligations.InvariantHoldsAtReset : Prop := Inv State.reset

/-- In a state that meets the invariant no step faults, a running command always goes on, and so does an idle block
with no command (R22, R51, R65: the sequencer never leaves its micro-programs). -/
def Obligations.InvariantStatesNeverGetStuck : Prop :=
  ∀ s : State, Inv s →
    (∀ f, step s ≠ .fault f) ∧
    (s.busy = true ∨ s.portIn.rst = true ∨ s.portIn.cmdValid = false → ∃ t, step s = .next t)

/-- The binding, once set, is kept by every step but a reset: "first caller wins" (R11, R12). -/
def Obligations.BindingIsKeptOnceSet : Prop :=
  ∀ s t : State, s.bound = true → s.portIn.rst = false → step s = .next t → SameBinding s t

/-- `phase`, `rsp_ok` and `rsp_data` are written at a completion only, where `busy` falls and `rsp_valid` rises
(R24, R25, R31). -/
def Obligations.StatusIsWrittenAtCompletionOnly : Prop :=
  ∀ s t : State, step s = .next t → s.portIn.rst = false →
    (t.phase ≠ s.phase ∨ t.rspOk ≠ s.rspOk ∨ t.rspData ≠ s.rspData → s.busy = true ∧ t.busy = false) ∧
    (s.busy = true → t.busy = false → t.rspValid = true)

/-! ### Whole commands: runs of the step function, for every length of the delays -/

/-- BIND, accepted and run to its end in two steps: the first one binds, a later one changes nothing of the binding and
still answers success; neither touches the pins nor `phase` (R80, R189). -/
def Obligations.BindRunsToItsEnd : Prop :=
  ∀ (s : State) (sda scl : BitPos), sda ≠ scl →
    Presented (0x800#12 ||| (scl.setWidth 12 <<< 4) ||| sda.setWidth 12) s → NoReset s 3 →
    ∃ t, runSteps 3 s = .next t ∧ t.busy = false ∧ t.rspValid = true ∧ t.rspOk = true ∧ t.nack = false ∧
      t.bound = true ∧
      t.sdaBit = (if s.bound then s.sdaBit else sda) ∧ t.sclBit = (if s.bound then s.sclBit else scl) ∧
      t.ddr = s.ddr ∧ t.port = s.port ∧ t.phase = s.phase

/-- START (R110, the data line released before the clock: decision D8), from every state of the lines, with the clock
wait polled low `d` times: the lines after each uop, the flags, and completion at step 6 + d + 2F (F the full delay), the
count the spec derives in R192. -/
def Obligations.StartRunsToItsEnd : Prop :=
  ∀ (s : State) (d : Nat), Bound s → Presented 0x100#12 s →
    NoReset s (7 + d + 2 * Config.delayFullCycles) → WaitAnswered s 3 d →
    (∃ u, runSteps 2 s = .next u ∧ u.lineState .sda = .released ∧ u.lineState .scl = s.lineState .scl) ∧
    (∃ u, runSteps 3 s = .next u ∧ u.boundary = some .br) ∧
    (∃ u, runSteps (4 + d) s = .next u ∧ u.boundary = some .br) ∧
    (∃ u, runSteps (4 + d + Config.delayFullCycles) s = .next u ∧ u.boundary = some .br) ∧
    (∃ u, runSteps (5 + d + Config.delayFullCycles) s = .next u ∧
      u.lineState .sda = .held ∧ u.lineState .scl = .released) ∧
    (∃ u, runSteps (5 + d + 2 * Config.delayFullCycles) s = .next u ∧
      u.lineState .sda = .held ∧ u.lineState .scl = .released) ∧
    (∃ u, runSteps (6 + d + 2 * Config.delayFullCycles) s = .next u ∧ u.boundary = some .bh) ∧
    ∃ t, runSteps (7 + d + 2 * Config.delayFullCycles) s = .next t ∧
      t.boundary = some .bh ∧ t.busy = false ∧ t.rspValid = true ∧ t.rspOk = true ∧ t.phase = .startSent ∧
      t.nack = false ∧ SameBinding s t ∧ OtherPinsSame s t

/-- STOP (R112), from every state of the lines, with the clock wait polled low `d` times: the lines after each uop, the
flags, and completion at step 5 + d + F, the count the spec derives in R192. -/
def Obligations.StopRunsToItsEnd : Prop :=
  ∀ (s : State) (d : Nat), Bound s → Presented 0x200#12 s →
    NoReset s (6 + d + Config.delayFullCycles) → WaitAnswered s 3 d →
    (∃ u, runSteps 2 s = .next u ∧ u.lineState .sda = .held ∧ u.lineState .scl = s.lineState .scl) ∧
    (∃ u, runSteps 3 s = .next u ∧ u.lineState .sda = .held ∧ u.lineState .scl = .released) ∧
    (∃ u, runSteps (4 + d) s = .next u ∧ u.lineState .sda = .held ∧ u.lineState .scl = .released) ∧
    (∃ u, runSteps (4 + d + Config.delayFullCycles) s = .next u ∧
      u.lineState .sda = .held ∧ u.lineState .scl = .released) ∧
    (∃ u, runSteps (5 + d + Config.delayFullCycles) s = .next u ∧ u.boundary = some .br) ∧
    ∃ t, runSteps (6 + d + Config.delayFullCycles) s = .next t ∧
      t.boundary = some .br ∧ t.busy = false ∧ t.rspValid = true ∧ t.rspOk = true ∧ t.phase = .idle ∧
      t.nack = false ∧ SameBinding s t ∧ OtherPinsSame s t

/-- WRITE shows the byte MSB-first, one bit per clock pulse (R42, R120, S1), wherever the clock is stretched (the `i`-th
wait polled low `d i` times). For the eight `i`, with the data line RELEASED for a 1 and HELD for a 0 of bit `7 - i` from
before the pulse to after it: the clock HELD before the pulse (before the first one, as WRITE found it), RELEASED over
every poll of its wait and its full high delay, then HELD over its full low delay. -/
def Obligations.WriteShowsTheByteMsbFirst : Prop :=
  ∀ (s : State) (data : Byte) (F : Nat) (d : Nat → Nat), F = Config.delayFullCycles → Bound s →
    Presented (0x300#12 ||| data.setWidth 12) s → NoReset s (33 + 16 * F + waited d 8) →
    (∀ i < 8, WaitAnswered s (3 + i * (4 + 2 * F) + waited d i) (d i)) →
    ∀ i < 8,
      (∃ u, runSteps (2 + i * (4 + 2 * F) + waited d i) s = .next u ∧
        u.lineState .scl = (if i = 0 then s.lineState .scl else .held) ∧
        u.lineState .sda = if data.getLsbD (7 - i) then .released else .held) ∧
      (∀ j ≤ F + 1 + d i, ∃ u, runSteps (3 + i * (4 + 2 * F) + waited d i + j) s = .next u ∧
        u.lineState .scl = .released ∧ u.lineState .sda = if data.getLsbD (7 - i) then .released else .held) ∧
      (∀ j ≤ F, ∃ u, runSteps (5 + F + i * (4 + 2 * F) + waited d (i + 1) + j) s = .next u ∧
        u.lineState .scl = .held ∧ u.lineState .sda = if data.getLsbD (7 - i) then .released else .held)

/-- WRITE acknowledged (R123), wherever the clock is stretched. The ninth pulse (R120, decisions D9, D10): the data line
RELEASED with the clock still HELD, both RELEASED from the release of the clock to the sample, the clock HELD, then the
data line HELD. Completion at step 39 + 17F and one more for each low poll, the count the spec derives in R192, with the
lines in boundary state BH. -/
def Obligations.WriteAcknowledgedRunsToItsEnd : Prop :=
  ∀ (s : State) (data : Byte) (F : Nat) (d : Nat → Nat), F = Config.delayFullCycles → Bound s →
    Presented (0x300#12 ||| data.setWidth 12) s → NoReset s (40 + 17 * F + waited d 9) →
    (∀ i < 9, WaitAnswered s (3 + i * (4 + 2 * F) + waited d i) (d i)) →
    s.pinAt .sda (36 + 17 * F + waited d 9) = false →
    (∃ u, runSteps (34 + 16 * F + waited d 8) s = .next u ∧
      u.lineState .sda = .released ∧ u.lineState .scl = .held) ∧
    (∀ j ≤ F + 2 + d 8, ∃ u, runSteps (35 + 16 * F + waited d 8 + j) s = .next u ∧ u.boundary = some .br) ∧
    (∃ u, runSteps (38 + 17 * F + waited d 9) s = .next u ∧
      u.lineState .sda = .released ∧ u.lineState .scl = .held) ∧
    (∃ u, runSteps (39 + 17 * F + waited d 9) s = .next u ∧ u.boundary = some .bh) ∧
    ∃ t, runSteps (40 + 17 * F + waited d 9) s = .next t ∧
      t.boundary = some .bh ∧ t.busy = false ∧ t.rspValid = true ∧ t.rspOk = true ∧ t.nack = false ∧
      t.sh = 0x00#8 ∧ t.phase = .byteTransferWrite ∧ SameBinding s t ∧ OtherPinsSame s t

/-- WRITE not acknowledged (R123, R150, R153), wherever the clock is stretched. In the ninth pulse (R120, decision D10)
the data line is RELEASED while the clock is still HELD, and from the release of the clock on both lines are RELEASED,
through completion, which is in the step of ACK_GET: step 36 + 17F and one more for each low poll, the count the spec
derives in R192. -/
def Obligations.WriteNotAcknowledgedRunsToItsEnd : Prop :=
  ∀ (s : State) (data : Byte) (F : Nat) (d : Nat → Nat), F = Config.delayFullCycles → Bound s →
    Presented (0x300#12 ||| data.setWidth 12) s → NoReset s (37 + 17 * F + waited d 9) →
    (∀ i < 9, WaitAnswered s (3 + i * (4 + 2 * F) + waited d i) (d i)) →
    s.pinAt .sda (36 + 17 * F + waited d 9) = true →
    (∃ u, runSteps (34 + 16 * F + waited d 8) s = .next u ∧
      u.lineState .sda = .released ∧ u.lineState .scl = .held) ∧
    (∀ j ≤ F + 1 + d 8, ∃ u, runSteps (35 + 16 * F + waited d 8 + j) s = .next u ∧ u.boundary = some .br) ∧
    ∃ t, runSteps (37 + 17 * F + waited d 9) s = .next t ∧
      t.boundary = some .br ∧ t.busy = false ∧ t.rspValid = true ∧ t.rspOk = false ∧ t.nack = true ∧
      t.sh = 0x00#8 ∧ t.phase = .byteTransferWrite ∧ SameBinding s t ∧ OtherPinsSame s t

/-- READ (R130, R132): wherever the clock is stretched, the byte returned is the eight samples of the data line, MSB
first, each taken a half delay (H steps) after its wait; completion at step 39 + 3F + 16H, one less for `last` = 1, and
one more for each low poll (R192); lines in boundary state BM. -/
def Obligations.ReadReturnsTheSampledByte : Prop :=
  ∀ (s : State) (last : Bool) (F H : Nat) (d : Nat → Nat), F = Config.delayFullCycles →
    H = Config.delayHalfCycles → Bound s → Presented (if last then 0x401#12 else 0x400#12) s →
    NoReset s ((if last then 39 else 40) + 3 * F + 16 * H + waited d 9) →
    (∀ i < 8, WaitAnswered s (3 + F + i * (4 + 2 * H) + waited d i) (d i)) →
    WaitAnswered s (36 + F + 16 * H + waited d 8) (d 8) →
    ∃ t, runSteps ((if last then 39 else 40) + 3 * F + 16 * H + waited d 9) s = .next t ∧
      (∀ i < 8, t.rspData.getLsbD (7 - i) = s.pinAt .sda (4 + F + H + i * (4 + 2 * H) + waited d (i + 1))) ∧
      t.boundary = some .bm ∧ t.busy = false ∧ t.rspValid = true ∧ t.rspOk = true ∧ t.nack = false ∧
      t.phase = .byteTransferRead ∧ SameBinding s t ∧ OtherPinsSame s t

/-- READ's own acknowledgment (R132, S3), through the whole ninth clock pulse (TOGGLE, R105): the data line is HELD for
`last` = 0 and RELEASED for `last` = 1, with the clock RELEASED from its release over every poll of its wait to the end of
its full high delay, and then HELD to the end of its full low delay. -/
def Obligations.ReadAnswersAckOrNack : Prop :=
  ∀ (s : State) (last : Bool) (F H : Nat) (d : Nat → Nat), F = Config.delayFullCycles →
    H = Config.delayHalfCycles → Bound s → Presented (if last then 0x401#12 else 0x400#12) s →
    NoReset s (38 + 3 * F + 16 * H + waited d 9) →
    (∀ i < 8, WaitAnswered s (3 + F + i * (4 + 2 * H) + waited d i) (d i)) →
    WaitAnswered s (36 + F + 16 * H + waited d 8) (d 8) →
    (∀ j ≤ F + 1 + d 8, ∃ u, runSteps (36 + F + 16 * H + waited d 8 + j) s = .next u ∧
      u.lineState .scl = .released ∧ u.lineState .sda = if last then .released else .held) ∧
    (∀ j ≤ F, ∃ u, runSteps (38 + 2 * F + 16 * H + waited d 9 + j) s = .next u ∧
      u.lineState .scl = .held ∧ u.lineState .sda = if last then .released else .held)

/-! ### The bus -/

/-- What START puts on an ideal bus from each boundary state (R111). Targets hold the clock high; in BM one may hold the
data line low, and then no start condition appears. -/
def Obligations.StartOnTheIdealBus : Prop :=
  ∀ (s : State) (ext : Byte) (last : Bool), s.sdaBit ≠ s.sclBit → getBit ext s.sclBit = false →
    (s.boundary = some .b0 ∨ s.boundary = some .br ∨ s.boundary = some .bh → getBit ext s.sdaBit = false →
      busEvents ext (prog 0x1#4 last) s = [.startCondition]) ∧
    (s.boundary = some .bm →
      busEvents ext (prog 0x1#4 last) s = if getBit ext s.sdaBit then [] else [.startCondition])

/-- What STOP puts on an ideal bus from each boundary state (R113): from a released clock, a start condition first. -/
def Obligations.StopOnTheIdealBus : Prop :=
  ∀ (s : State) (ext : Byte) (last : Bool), s.sdaBit ≠ s.sclBit → getBit ext s.sclBit = false →
    getBit ext s.sdaBit = false →
    (s.boundary = some .bh ∨ s.boundary = some .bm → busEvents ext (prog 0x2#4 last) s = [.stopCondition]) ∧
    (s.boundary = some .b0 ∨ s.boundary = some .br →
      busEvents ext (prog 0x2#4 last) s = [.startCondition, .stopCondition])

/-! ### The host's transactions -/

/-- R69: the address byte is `(slave << 1) | rw` in eight bits, nothing lost. -/
def Obligations.AddressByte : Prop :=
  ∀ (slave : SlaveAddr) (rw : Bool), (addrByte slave rw).toNat = 2 * slave.toNat + rw.toNat

/-- WRITE_TXN and READ_TXN entry by entry, where every byte is acknowledged (R141, R142, address bytes as R144 gives
them): `n + 4` and `len + 7` legal commands; in a read transaction there are `len` READs, no other entry is one, and only
the final one has `last` = 1. -/
def Obligations.TransactionCommands : Prop :=
  (∀ (slave : SlaveAddr) (reg : Byte) (data : List Byte),
    (writeTxn slave reg data).length = data.length + 4 ∧
    (writeTxn slave reg data)[0]? = some .start ∧
    (writeTxn slave reg data)[1]? = some (.write (slave.setWidth 8 <<< 1)) ∧
    (writeTxn slave reg data)[2]? = some (.write reg) ∧
    (∀ (j : Nat) (b : Byte), data[j]? = some b → (writeTxn slave reg data)[3 + j]? = some (.write b)) ∧
    (writeTxn slave reg data)[data.length + 3]? = some .stop ∧
    ∀ c ∈ writeTxn slave reg data, c.isCommand = true ∧ c.WellFormed) ∧
  (∀ (slave : SlaveAddr) (reg : Byte) (len : Nat),
    (readTxn slave reg len).length = len + 7 ∧
    (readTxn slave reg len)[0]? = some .start ∧
    (readTxn slave reg len)[1]? = some (.write (slave.setWidth 8 <<< 1)) ∧
    (readTxn slave reg len)[2]? = some (.write reg) ∧
    (readTxn slave reg len)[3]? = some .stop ∧
    (readTxn slave reg len)[4]? = some .start ∧
    (readTxn slave reg len)[5]? = some (.write ((slave.setWidth 8 <<< 1) ||| 0x01#8)) ∧
    (∀ j < len, (readTxn slave reg len)[6 + j]? = some (.read (decide (j + 1 = len)))) ∧
    (readTxn slave reg len)[len + 6]? = some .stop ∧
    (∀ (k : Nat) (last : Bool), (readTxn slave reg len)[k]? = some (.read last) → 6 ≤ k ∧ k < 6 + len) ∧
    ∀ c ∈ readTxn slave reg len, c.isCommand = true ∧ c.WellFormed)

/-- The abort rule (R143): the first WRITE answered with `rsp_ok` = 0 ends the pseudo-instruction with FAILURE and
nothing more is issued; any other response goes on to the next command, and the last one ends it with SUCCESS. -/
def Obligations.FirstUnacknowledgedWriteAborts : Prop :=
  ∀ (h : HostProg) (c : Instr) (cs : List Instr) (data : Byte), h.todo = c :: cs →
    (∀ v, c = .write v → (h.respond false data).todo = [] ∧ (h.respond false data).result = some false) ∧
    (h.respond true data).todo = cs ∧ ((h.respond true data).result = some true ↔ cs = []) ∧
    (∀ last, c = .read last → (h.respond true data).buf = h.buf ++ [data])

/-- A host that runs a pseudo-instruction on the ideal bus never meets a refusal or a fault once the block is bound and
in a state that meets the invariant: it presents legal words only, and only to an idle block. -/
def Obligations.TransactionsAreNeverRefused : Prop :=
  ∀ (ext : Byte) (h : HostProg) (s : State), Inv s → s.bound = true →
    (∀ c ∈ h.todo, c.isCommand = true ∧ c.WellFormed) → ∃ g t, hostStep ext h s = .next (g, t) ∧ Inv t ∧ t.bound = true ∧
      ∀ c ∈ g.todo, c.isCommand = true ∧ c.WellFormed
end

