-- ==== Sys2Proof/Laws/Decode.lean ====
section
/-! SUPPORT. The fields of a command word read back what it was built from (R60, R62). -/

namespace Sys2Proof

@[simp] theorem opcOf_cmdWord (o : Opcode) (a : Byte) : opcOf (cmdWord o a) = o := by
  unfold opcOf cmdWord
  apply BitVec.eq_of_getLsbD_eq
  intro i hi
  have h : 8 + i < 12 := by omega
  simp [hi, h]

@[simp] theorem argOf_cmdWord (o : Opcode) (a : Byte) : argOf (cmdWord o a) = a := by
  unfold argOf cmdWord
  apply BitVec.eq_of_getLsbD_eq
  intro i hi
  have h : i < 12 := by omega
  simp [hi, h]

/-- A command word is its opcode and its argument, nothing else. -/
theorem cmdWord_eta (w : CmdWord) : cmdWord (opcOf w) (argOf w) = w := by
  unfold argOf cmdWord opcOf
  apply BitVec.eq_of_getLsbD_eq
  intro i hi
  by_cases h : i < 8
  · simp [h, hi]
  · simp [h, hi, show 8 + (i - 8) = i by omega, show i - 8 < 4 by omega]

@[simp] theorem cmdWord_getLsbD_zero (o : Opcode) (a : Byte) : (cmdWord o a).getLsbD 0 = a.getLsbD 0 := by
  simp [cmdWord]

@[simp] theorem sdaField_bindArg : ∀ sda scl : BitPos, sdaField (bindArg sda scl) = sda := by decide

@[simp] theorem sclField_bindArg : ∀ sda scl : BitPos, sclField (bindArg sda scl) = scl := by decide

/-- BIND's argument is its two positions where its must-be-zero bits are zero (R62). -/
theorem bindArg_eta : ∀ arg : Byte, arg.getLsbD 3 = false → arg.getLsbD 7 = false →
    bindArg (sdaField arg) (sclField arg) = arg := by decide +kernel

/-- READ's argument is `last` where its must-be-zero bits are zero (R62). -/
theorem readArg_eta : ∀ arg : Byte, arg.extractLsb' 1 7 = 0#7 → readArg (arg.getLsbD 0) = arg := by decide +kernel

end Sys2Proof
end

