-- ==== Sys2Proof/Laws/State.lean ====
section
/-! SUPPORT. What each named update of the state leaves in each field: one lemma per field per update, so that no
later proof unfolds a record update. -/

namespace Sys2Proof.Machine

variable (s : State)

/-! ### `State.edge` -/

@[simp] theorem State.edge_bound : (s.edge).bound = s.bound := rfl
@[simp] theorem State.edge_sdaBit : (s.edge).sdaBit = s.sdaBit := rfl
@[simp] theorem State.edge_sclBit : (s.edge).sclBit = s.sclBit := rfl
@[simp] theorem State.edge_ddr : (s.edge).ddr = s.ddr := rfl
@[simp] theorem State.edge_port : (s.edge).port = s.port := rfl
@[simp] theorem State.edge_busy : (s.edge).busy = s.busy := rfl
@[simp] theorem State.edge_op : (s.edge).op = s.op := rfl
@[simp] theorem State.edge_last : (s.edge).last = s.last := rfl
@[simp] theorem State.edge_sh : (s.edge).sh = s.sh := rfl
@[simp] theorem State.edge_nack : (s.edge).nack = s.nack := rfl
@[simp] theorem State.edge_upc : (s.edge).upc = s.upc := rfl
@[simp] theorem State.edge_dly : (s.edge).dly = s.dly := rfl
@[simp] theorem State.edge_dlyRun : (s.edge).dlyRun = s.dlyRun := rfl
@[simp] theorem State.edge_phase : (s.edge).phase = s.phase := rfl
@[simp] theorem State.edge_rspValid : (s.edge).rspValid = s.rspValid := rfl
@[simp] theorem State.edge_rspOk : (s.edge).rspOk = s.rspOk := rfl
@[simp] theorem State.edge_rspData : (s.edge).rspData = s.rspData := rfl
@[simp] theorem State.edge_inputs : (s.edge).inputs = s.inputs.tail := rfl
@[simp] theorem State.edge_tick : (s.edge).tick = s.tick + 1 := rfl
@[simp] theorem State.edge_bit (L : Line) : (s.edge).bit L = s.bit L := rfl

/-! ### `State.withPortIn` -/

@[simp] theorem State.withPortIn_bound (p : PortIn) : (s.withPortIn p).bound = s.bound := rfl
@[simp] theorem State.withPortIn_sdaBit (p : PortIn) : (s.withPortIn p).sdaBit = s.sdaBit := rfl
@[simp] theorem State.withPortIn_sclBit (p : PortIn) : (s.withPortIn p).sclBit = s.sclBit := rfl
@[simp] theorem State.withPortIn_ddr (p : PortIn) : (s.withPortIn p).ddr = s.ddr := rfl
@[simp] theorem State.withPortIn_port (p : PortIn) : (s.withPortIn p).port = s.port := rfl
@[simp] theorem State.withPortIn_busy (p : PortIn) : (s.withPortIn p).busy = s.busy := rfl
@[simp] theorem State.withPortIn_op (p : PortIn) : (s.withPortIn p).op = s.op := rfl
@[simp] theorem State.withPortIn_last (p : PortIn) : (s.withPortIn p).last = s.last := rfl
@[simp] theorem State.withPortIn_sh (p : PortIn) : (s.withPortIn p).sh = s.sh := rfl
@[simp] theorem State.withPortIn_nack (p : PortIn) : (s.withPortIn p).nack = s.nack := rfl
@[simp] theorem State.withPortIn_upc (p : PortIn) : (s.withPortIn p).upc = s.upc := rfl
@[simp] theorem State.withPortIn_dly (p : PortIn) : (s.withPortIn p).dly = s.dly := rfl
@[simp] theorem State.withPortIn_dlyRun (p : PortIn) : (s.withPortIn p).dlyRun = s.dlyRun := rfl
@[simp] theorem State.withPortIn_phase (p : PortIn) : (s.withPortIn p).phase = s.phase := rfl
@[simp] theorem State.withPortIn_rspValid (p : PortIn) : (s.withPortIn p).rspValid = s.rspValid := rfl
@[simp] theorem State.withPortIn_rspOk (p : PortIn) : (s.withPortIn p).rspOk = s.rspOk := rfl
@[simp] theorem State.withPortIn_rspData (p : PortIn) : (s.withPortIn p).rspData = s.rspData := rfl
@[simp] theorem State.withPortIn_inputs (p : PortIn) : (s.withPortIn p).inputs = p :: s.inputs.tail := rfl
@[simp] theorem State.withPortIn_tick (p : PortIn) : (s.withPortIn p).tick = s.tick := rfl
@[simp] theorem State.withPortIn_bit (p : PortIn) (L : Line) : (s.withPortIn p).bit L = s.bit L := rfl

/-! ### `State.advance` -/

@[simp] theorem State.advance_bound : (s.advance).bound = s.bound := rfl
@[simp] theorem State.advance_sdaBit : (s.advance).sdaBit = s.sdaBit := rfl
@[simp] theorem State.advance_sclBit : (s.advance).sclBit = s.sclBit := rfl
@[simp] theorem State.advance_ddr : (s.advance).ddr = s.ddr := rfl
@[simp] theorem State.advance_port : (s.advance).port = s.port := rfl
@[simp] theorem State.advance_busy : (s.advance).busy = s.busy := rfl
@[simp] theorem State.advance_op : (s.advance).op = s.op := rfl
@[simp] theorem State.advance_last : (s.advance).last = s.last := rfl
@[simp] theorem State.advance_sh : (s.advance).sh = s.sh := rfl
@[simp] theorem State.advance_nack : (s.advance).nack = s.nack := rfl
@[simp] theorem State.advance_upc : (s.advance).upc = upcNext s.upc := rfl
@[simp] theorem State.advance_dly : (s.advance).dly = s.dly := rfl
@[simp] theorem State.advance_dlyRun : (s.advance).dlyRun = s.dlyRun := rfl
@[simp] theorem State.advance_phase : (s.advance).phase = s.phase := rfl
@[simp] theorem State.advance_rspValid : (s.advance).rspValid = s.rspValid := rfl
@[simp] theorem State.advance_rspOk : (s.advance).rspOk = s.rspOk := rfl
@[simp] theorem State.advance_rspData : (s.advance).rspData = s.rspData := rfl
@[simp] theorem State.advance_inputs : (s.advance).inputs = s.inputs := rfl
@[simp] theorem State.advance_tick : (s.advance).tick = s.tick := rfl
@[simp] theorem State.advance_bit (L : Line) : (s.advance).bit L = s.bit L := rfl

/-! ### `State.accept` -/

@[simp] theorem State.accept_bound (w : CmdWord) : (s.accept w).bound = s.bound := rfl
@[simp] theorem State.accept_sdaBit (w : CmdWord) : (s.accept w).sdaBit = s.sdaBit := rfl
@[simp] theorem State.accept_sclBit (w : CmdWord) : (s.accept w).sclBit = s.sclBit := rfl
@[simp] theorem State.accept_ddr (w : CmdWord) : (s.accept w).ddr = s.ddr := rfl
@[simp] theorem State.accept_port (w : CmdWord) : (s.accept w).port = s.port := rfl
@[simp] theorem State.accept_busy (w : CmdWord) : (s.accept w).busy = true := rfl
@[simp] theorem State.accept_op (w : CmdWord) : (s.accept w).op = opcOf w := rfl
@[simp] theorem State.accept_last (w : CmdWord) : (s.accept w).last = w.getLsbD 0 := rfl
@[simp] theorem State.accept_sh (w : CmdWord) : (s.accept w).sh = argOf w := rfl
@[simp] theorem State.accept_nack (w : CmdWord) : (s.accept w).nack = false := rfl
@[simp] theorem State.accept_upc (w : CmdWord) : (s.accept w).upc = 0#6 := rfl
@[simp] theorem State.accept_dly (w : CmdWord) : (s.accept w).dly = s.dly := rfl
@[simp] theorem State.accept_dlyRun (w : CmdWord) : (s.accept w).dlyRun = s.dlyRun := rfl
@[simp] theorem State.accept_phase (w : CmdWord) : (s.accept w).phase = s.phase := rfl
@[simp] theorem State.accept_rspValid (w : CmdWord) : (s.accept w).rspValid = false := rfl
@[simp] theorem State.accept_rspOk (w : CmdWord) : (s.accept w).rspOk = s.rspOk := rfl
@[simp] theorem State.accept_rspData (w : CmdWord) : (s.accept w).rspData = s.rspData := rfl
@[simp] theorem State.accept_inputs (w : CmdWord) : (s.accept w).inputs = s.inputs := rfl
@[simp] theorem State.accept_tick (w : CmdWord) : (s.accept w).tick = s.tick := rfl
@[simp] theorem State.accept_bit (w : CmdWord) (L : Line) : (s.accept w).bit L = s.bit L := rfl

/-! ### `State.complete` -/

@[simp] theorem State.complete_bound (ok : Bool) : (s.complete ok).bound = s.bound := rfl
@[simp] theorem State.complete_sdaBit (ok : Bool) : (s.complete ok).sdaBit = s.sdaBit := rfl
@[simp] theorem State.complete_sclBit (ok : Bool) : (s.complete ok).sclBit = s.sclBit := rfl
@[simp] theorem State.complete_ddr (ok : Bool) : (s.complete ok).ddr = s.ddr := rfl
@[simp] theorem State.complete_port (ok : Bool) : (s.complete ok).port = s.port := rfl
@[simp] theorem State.complete_busy (ok : Bool) : (s.complete ok).busy = false := rfl
@[simp] theorem State.complete_op (ok : Bool) : (s.complete ok).op = s.op := rfl
@[simp] theorem State.complete_last (ok : Bool) : (s.complete ok).last = s.last := rfl
@[simp] theorem State.complete_sh (ok : Bool) : (s.complete ok).sh = s.sh := rfl
@[simp] theorem State.complete_nack (ok : Bool) : (s.complete ok).nack = s.nack := rfl
@[simp] theorem State.complete_upc (ok : Bool) : (s.complete ok).upc = s.upc := rfl
@[simp] theorem State.complete_dly (ok : Bool) : (s.complete ok).dly = s.dly := rfl
@[simp] theorem State.complete_dlyRun (ok : Bool) : (s.complete ok).dlyRun = s.dlyRun := rfl
@[simp] theorem State.complete_phase (ok : Bool) : (s.complete ok).phase = phaseAfter s.op s.phase := rfl
@[simp] theorem State.complete_rspValid (ok : Bool) : (s.complete ok).rspValid = true := rfl
@[simp] theorem State.complete_rspOk (ok : Bool) : (s.complete ok).rspOk = ok := rfl
@[simp] theorem State.complete_rspData (ok : Bool) : (s.complete ok).rspData = s.sh := rfl
@[simp] theorem State.complete_inputs (ok : Bool) : (s.complete ok).inputs = s.inputs := rfl
@[simp] theorem State.complete_tick (ok : Bool) : (s.complete ok).tick = s.tick := rfl
@[simp] theorem State.complete_bit (ok : Bool) (L : Line) : (s.complete ok).bit L = s.bit L := rfl

/-! ### `State.setLine` -/

@[simp] theorem State.setLine_bound (L : Line) (d l : Bool) : (s.setLine L d l).bound = s.bound := rfl
@[simp] theorem State.setLine_sdaBit (L : Line) (d l : Bool) : (s.setLine L d l).sdaBit = s.sdaBit := rfl
@[simp] theorem State.setLine_sclBit (L : Line) (d l : Bool) : (s.setLine L d l).sclBit = s.sclBit := rfl
@[simp] theorem State.setLine_ddr (L : Line) (d l : Bool) : (s.setLine L d l).ddr = setBit s.ddr (s.bit L) d := rfl
@[simp] theorem State.setLine_port (L : Line) (d l : Bool) : (s.setLine L d l).port = setBit s.port (s.bit L) l := rfl
@[simp] theorem State.setLine_busy (L : Line) (d l : Bool) : (s.setLine L d l).busy = s.busy := rfl
@[simp] theorem State.setLine_op (L : Line) (d l : Bool) : (s.setLine L d l).op = s.op := rfl
@[simp] theorem State.setLine_last (L : Line) (d l : Bool) : (s.setLine L d l).last = s.last := rfl
@[simp] theorem State.setLine_sh (L : Line) (d l : Bool) : (s.setLine L d l).sh = s.sh := rfl
@[simp] theorem State.setLine_nack (L : Line) (d l : Bool) : (s.setLine L d l).nack = s.nack := rfl
@[simp] theorem State.setLine_upc (L : Line) (d l : Bool) : (s.setLine L d l).upc = s.upc := rfl
@[simp] theorem State.setLine_dly (L : Line) (d l : Bool) : (s.setLine L d l).dly = s.dly := rfl
@[simp] theorem State.setLine_dlyRun (L : Line) (d l : Bool) : (s.setLine L d l).dlyRun = s.dlyRun := rfl
@[simp] theorem State.setLine_phase (L : Line) (d l : Bool) : (s.setLine L d l).phase = s.phase := rfl
@[simp] theorem State.setLine_rspValid (L : Line) (d l : Bool) : (s.setLine L d l).rspValid = s.rspValid := rfl
@[simp] theorem State.setLine_rspOk (L : Line) (d l : Bool) : (s.setLine L d l).rspOk = s.rspOk := rfl
@[simp] theorem State.setLine_rspData (L : Line) (d l : Bool) : (s.setLine L d l).rspData = s.rspData := rfl
@[simp] theorem State.setLine_inputs (L : Line) (d l : Bool) : (s.setLine L d l).inputs = s.inputs := rfl
@[simp] theorem State.setLine_tick (L : Line) (d l : Bool) : (s.setLine L d l).tick = s.tick := rfl
@[simp] theorem State.setLine_bit (M : Line) (d l : Bool) (L : Line) : (s.setLine M d l).bit L = s.bit L := rfl

/-! ### `State.resetRegs` -/

@[simp] theorem State.resetRegs_bound : (s.resetRegs).bound = State.reset.bound := rfl
@[simp] theorem State.resetRegs_sdaBit : (s.resetRegs).sdaBit = State.reset.sdaBit := rfl
@[simp] theorem State.resetRegs_sclBit : (s.resetRegs).sclBit = State.reset.sclBit := rfl
@[simp] theorem State.resetRegs_ddr : (s.resetRegs).ddr = State.reset.ddr := rfl
@[simp] theorem State.resetRegs_port : (s.resetRegs).port = State.reset.port := rfl
@[simp] theorem State.resetRegs_busy : (s.resetRegs).busy = State.reset.busy := rfl
@[simp] theorem State.resetRegs_op : (s.resetRegs).op = State.reset.op := rfl
@[simp] theorem State.resetRegs_last : (s.resetRegs).last = State.reset.last := rfl
@[simp] theorem State.resetRegs_sh : (s.resetRegs).sh = State.reset.sh := rfl
@[simp] theorem State.resetRegs_nack : (s.resetRegs).nack = State.reset.nack := rfl
@[simp] theorem State.resetRegs_upc : (s.resetRegs).upc = State.reset.upc := rfl
@[simp] theorem State.resetRegs_dly : (s.resetRegs).dly = State.reset.dly := rfl
@[simp] theorem State.resetRegs_dlyRun : (s.resetRegs).dlyRun = State.reset.dlyRun := rfl
@[simp] theorem State.resetRegs_phase : (s.resetRegs).phase = State.reset.phase := rfl
@[simp] theorem State.resetRegs_rspValid : (s.resetRegs).rspValid = State.reset.rspValid := rfl
@[simp] theorem State.resetRegs_rspOk : (s.resetRegs).rspOk = State.reset.rspOk := rfl
@[simp] theorem State.resetRegs_rspData : (s.resetRegs).rspData = State.reset.rspData := rfl
@[simp] theorem State.resetRegs_inputs : (s.resetRegs).inputs = s.inputs := rfl
@[simp] theorem State.resetRegs_tick : (s.resetRegs).tick = s.tick := rfl

/-! ### The updates made of these -/

theorem State.hold_eq (L : Line) : s.hold L = s.setLine L true false := rfl
theorem State.releaseRegs_eq (L : Line) : s.releaseRegs L = s.setLine L false true := rfl

theorem State.takeNotAcknowledged_eq :
    s.takeNotAcknowledged = { s with nack := true, busy := false, rspValid := true, rspOk := false, rspData := s.sh, phase := phaseAfter s.op s.phase } :=
  rfl

theorem State.latchBinding_of_bound (h : s.bound = true) : s.latchBinding = s := by
  simp [State.latchBinding, h]

theorem State.latchBinding_of_unbound (h : s.bound = false) :
    s.latchBinding = { s with sdaBit := sdaField s.sh, sclBit := sclField s.sh, bound := true } := by
  simp [State.latchBinding, h]

/-- Everything BIND_LATCH can do: nothing, or set an unset binding. -/
theorem State.latchBinding_cases :
    (s.bound = true ∧ s.latchBinding = s) ∨
    (s.bound = false ∧
      s.latchBinding = { s with sdaBit := sdaField s.sh, sclBit := sclField s.sh, bound := true }) := by
  cases h : s.bound
  · exact .inr ⟨rfl, s.latchBinding_of_unbound h⟩
  · exact .inl ⟨rfl, s.latchBinding_of_bound h⟩

/-- Everything one step of a delay can do: end it, or count down inside it. -/
theorem State.delayStep_cases (n : Nat) :
    (s.delayCount n ≤ 1 ∧ s.delayStep n = { s with dly := 0, dlyRun := false, upc := upcNext s.upc }) ∨
    (1 < s.delayCount n ∧ s.delayStep n = { s with dly := s.delayCount n - 1, dlyRun := true }) := by
  by_cases h : s.delayCount n ≤ 1
  · exact .inl ⟨h, by simp [State.delayStep, h, State.advance]⟩
  · exact .inr ⟨by omega, by simp [State.delayStep, h]⟩

/-- The input ports at the coming edge are the ones put there. -/
@[simp] theorem State.withPortIn_portIn (p : PortIn) : (s.withPortIn p).portIn = p := rfl

/-- `upc + 1` wherever a micro-program can take it (R30). -/
theorem upcNext_of_ne (u : Upc) (h : u ≠ 63#6) : upcNext u = u + 1#6 := by
  simp [upcNext, h]

end Sys2Proof.Machine
end

