-- ==== Sys2Proof/Laws/Fetch.lean ====
section
/-! SUPPORT. The micro-programs (R66): their lengths, that every code in them is a uop's (R65), that every uop but END
is followed by another (R22), that BIND's are BIND_LATCH and END. -/

namespace Sys2Proof.Machine

/-- The lengths of R66. -/
theorem prog_lengths :
    ∀ last, (prog Opc.start last).length = 8 ∧ (prog Opc.stop last).length = 6 ∧
      (prog Opc.write last).length = 56 ∧ (prog Opc.read last).length = (if last then 57 else 58) ∧
      (prog Opc.bind last).length = 2 := by decide

/-- An unused code is never fetched (R65). -/
theorem prog_decodes (op : Opcode) (last : Bool) :
    ∀ c ∈ prog op last, ∃ i, decodeUop c = .ok i := by
  have h : ∀ (op : Opcode) (last : Bool), (prog op last).all (fun c => (decodeUop c).toOption.isSome) = true := by
    decide
  intro c hc
  have := List.all_eq_true.mp (h op last) c hc
  cases hd : decodeUop c with
  | ok i => exact ⟨i, rfl⟩
  | error e => simp [hd, Except.toOption] at this

theorem fetchUop_decodes (s : State) (c : UopCode) (h : fetchUop s = some c) : ∃ i, decodeUop c = .ok i :=
  prog_decodes _ _ c (List.mem_of_getElem? h)

/-- Within a micro-program only END has no successor, and the index never wraps (R22). -/
theorem prog_successor (op : Opcode) (last : Bool) (u : Upc) (c : UopCode) (h : (prog op last)[u.toNat]? = some c)
    (hc : c ≠ Uop.endUop) : u ≠ 63#6 ∧ ((prog op last)[(u + 1#6).toNat]?).isSome = true := by
  have key : ∀ (op : Opcode) (last : Bool) (u : Upc),
      (prog op last)[u.toNat]? = none ∨ (prog op last)[u.toNat]? = some Uop.endUop ∨
      (u ≠ 63#6 ∧ ((prog op last)[(u + 1#6).toNat]?).isSome = true) := by
    decide +kernel
  rcases key op last u with k | k | k
  · simp [k] at h
  · rw [k] at h; exact absurd (Option.some.inj h).symm hc
  · exact k

/-- What BIND runs (R80). -/
theorem prog_bind_codes (last : Bool) (u : Upc) (c : UopCode) (h : (prog Opc.bind last)[u.toNat]? = some c) :
    c = Uop.bindLatch ∨ c = Uop.endUop := by
  have key : ∀ (last : Bool), ∀ c ∈ prog Opc.bind last, c = Uop.bindLatch ∨ c = Uop.endUop := by decide
  exact key last c (List.mem_of_getElem? h)

/-- BIND_LATCH stands in BIND's micro-program only, ACK_GET in WRITE's only (R66). -/
theorem prog_only (op : Opcode) (last : Bool) :
    (Uop.bindLatch ∈ prog op last → op = Opc.bind) ∧ (Uop.ackGet ∈ prog op last → op = Opc.write) := by
  revert op last; decide

/-- After any uop but END has advanced, there is a uop at the new index (R22, R30). -/
theorem fetchUop_after_advance (s t : State) (c : UopCode) (h : fetchUop s = some c) (hc : c ≠ Uop.endUop)
    (hop : t.op = s.op) (hl : t.last = s.last) (hu : t.upc = upcNext s.upc) : (fetchUop t).isSome = true := by
  obtain ⟨hne, hs⟩ := prog_successor _ _ _ _ h hc
  unfold fetchUop
  rw [hop, hl, hu, upcNext_of_ne _ hne]
  exact hs

/-- An accepted command has a first uop (R29, R66). -/
theorem prog_first (w : CmdWord) (i : Instr) (hd : decodeCmd w = .ok i) (last : Bool) :
    ((prog (opcOf w) last)[0]?).isSome = true := by
  have key : ∀ op last, (op = Opc.start ∨ op = Opc.stop ∨ op = Opc.write ∨ op = Opc.read ∨ op = Opc.bind) →
      ((prog op last)[0]?).isSome = true := by decide
  apply key
  by_contra hc
  push Not at hc
  simp [decodeCmd, hc.1, hc.2.1, hc.2.2.1, hc.2.2.2.1, hc.2.2.2.2] at hd

end Sys2Proof.Machine
end

