-- ==== Sys2Proof/Laws/Operands.lean ====
section
/-! SUPPORT. One-bit access to the bank (R43), the line primitives (R85, R86), the shifts (R8), the ideal bus. -/

namespace Sys2Proof.Machine

theorem getLsbD_oneAt (b c : BitPos) : (1#8 <<< b.toNat).getLsbD c.toNat = decide (c = b) := by
  revert b c; decide

/-- A write of one bit reads back at its position and leaves the other seven (R43). -/
@[simp] theorem getBit_setBit (x : Byte) (b c : BitPos) (v : Bool) :
    getBit (setBit x b v) c = if c = b then v else getBit x c := by
  have hc : c.toNat < 8 := c.isLt
  have h := getLsbD_oneAt b c
  unfold getBit setBit
  cases v
  · rw [if_neg (by simp), BitVec.getLsbD_and, BitVec.getLsbD_not, h]
    by_cases e : c = b <;> simp [e, b.isLt, hc]
  · rw [if_pos rfl, BitVec.getLsbD_or, h]
    by_cases e : c = b <;> simp [e]

/-- Two bytes with the same eight bits are the same. -/
theorem eq_of_getBit_eq (x y : Byte) (h : ∀ b : BitPos, getBit x b = getBit y b) : x = y := by
  apply BitVec.eq_of_getLsbD_eq
  intro i hi
  have := h (BitVec.ofNat 3 i)
  simpa [getBit, Nat.mod_eq_of_lt hi] using this

/-- Two bytes share no bit iff no position is set in both. -/
theorem and_eq_zero_iff (x y : Byte) : x &&& y = 0#8 ↔ ∀ b : BitPos, ¬ (getBit x b = true ∧ getBit y b = true) := by
  constructor
  · intro h b ⟨hx, hy⟩
    have := congrArg (fun z : Byte => getBit z b) h
    simp [getBit] at this hx hy
    simp [hx, hy] at this
  · intro h
    apply eq_of_getBit_eq
    intro b
    have := h b
    simp only [getBit, BitVec.getLsbD_and, BitVec.getLsbD_zero] at this ⊢
    cases hx : x.getLsbD b.toNat <;> cases hy : y.getLsbD b.toNat <;> simp_all

/-- A line is never left with both bits 1 (R17): a write of (`dir`, `level`) other than (1, 1) keeps the bank so. -/
theorem setLine_keeps_open_drain (s : State) (L : Line) (d l : Bool) (hdl : (d && l) = false)
    (h : s.ddr &&& s.port = 0#8) : (s.setLine L d l).ddr &&& (s.setLine L d l).port = 0#8 := by
  rw [and_eq_zero_iff] at h ⊢
  intro b
  simp only [State.setLine_ddr, State.setLine_port, getBit_setBit]
  by_cases e : b = s.bit L
  · simp only [e, if_true]; cases d <;> cases l <;> simp_all
  · simpa [e] using h b

theorem getLsbD_shiftOut (v : Byte) (i : Nat) (hi : i < 8) :
    (shiftOut v).getLsbD i = (decide (0 < i) && v.getLsbD (i - 1)) := by
  unfold shiftOut
  rw [BitVec.getLsbD_shiftLeft]
  cases i <;> simp [hi]

theorem getLsbD_shiftIn (v : Byte) (d : Bool) (i : Nat) (hi : i < 8) :
    (shiftIn v d).getLsbD i = if i = 0 then d else v.getLsbD (i - 1) := by
  unfold shiftIn
  rw [BitVec.getLsbD_or, BitVec.getLsbD_shiftLeft]
  cases i <;> simp [hi]

/-- The ideal bus shows each line its level (R53). -/
theorem getBit_idealPin (s : State) (ext : Byte) (L : Line) :
    getBit (s.idealPin ext) (s.bit L) = s.level ext L := by
  have hb : (s.bit L).toNat < 8 := (s.bit L).isLt
  simp [getBit, State.idealPin, State.level, State.engLow, hb]

end Sys2Proof.Machine
end

