-- ==== Sys2Proof/Laws/PerInstr.lean ====
section
/-! SUPPORT. One statement about every instruction as syntax, constructor by constructor: the word the encoder gives a
well-formed instruction fits its row of spec/opcode_table.json, the fixed bits of the row being as the row says. -/

namespace Sys2Proof.Laws.EncodeMatchesRow

/-- An opcode-table row as a mask and the value under it, for a 12-bit command word or a 4-bit uop code. -/
def fits (mask value : Nat) (w : CodeWord) : Prop :=
  match w with
  | .cmd w => w &&& BitVec.ofNat 12 mask = BitVec.ofNat 12 value
  | .uop c => c &&& BitVec.ofNat 4 mask = BitVec.ofNat 4 value

/-- Whether a word is of the level its instruction belongs to. -/
def level (i : Instr) (w : CodeWord) : Prop :=
  match w with
  | .cmd _ => i.isCommand = true
  | .uop _ => i.isCommand = false

/-- The fixed bits of each row (R62, R64, R65) and their values. -/
def row : Instr → Nat × Nat
  | .start => (0xFFF, 0x100)
  | .stop => (0xFFF, 0x200)
  | .write _ => (0xF00, 0x300)
  | .read _ => (0xFFE, 0x400)
  | .bind _ _ => (0xF88, 0x800)
  | .sdaHold => (0xF, 0x0)
  | .sdaRelease => (0xF, 0x1)
  | .sclHold => (0xF, 0x2)
  | .sclRelease => (0xF, 0x3)
  | .sclWait => (0xF, 0x4)
  | .delayFull => (0xF, 0x5)
  | .delayHalf => (0xF, 0x6)
  | .sdaPut => (0xF, 0x7)
  | .sdaGet => (0xF, 0x8)
  | .ackGet => (0xF, 0x9)
  | .bindLatch => (0xF, 0xA)
  | .endUop => (0xF, 0xB)

/-- The encoded word of a well-formed instruction is of its level and fits its row. -/
def Statement (i : Instr) : Prop :=
  i.WellFormed → level i (encode i) ∧ fits (row i).1 (row i).2 (encode i)

theorem start : Statement .start := fun _ => ⟨rfl, rfl⟩

theorem stop : Statement .stop := fun _ => ⟨rfl, rfl⟩

theorem write (data : Byte) : Statement (.write data) := by
  refine fun _ => ⟨rfl, ?_⟩
  change cmdWord Opc.write data &&& 0xF00#12 = 0x300#12
  revert data
  decide

theorem read (last : Bool) : Statement (.read last) := by
  cases last <;> exact fun _ => ⟨rfl, rfl⟩

theorem bind (sda scl : BitPos) : Statement (.bind sda scl) := by
  refine fun _ => ⟨rfl, ?_⟩
  change cmdWord Opc.bind (bindArg sda scl) &&& 0xF88#12 = 0x800#12
  revert sda scl
  decide

theorem sdaHold : Statement .sdaHold := fun _ => ⟨rfl, rfl⟩

theorem sdaRelease : Statement .sdaRelease := fun _ => ⟨rfl, rfl⟩

theorem sclHold : Statement .sclHold := fun _ => ⟨rfl, rfl⟩

theorem sclRelease : Statement .sclRelease := fun _ => ⟨rfl, rfl⟩

theorem sclWait : Statement .sclWait := fun _ => ⟨rfl, rfl⟩

theorem delayFull : Statement .delayFull := fun _ => ⟨rfl, rfl⟩

theorem delayHalf : Statement .delayHalf := fun _ => ⟨rfl, rfl⟩

theorem sdaPut : Statement .sdaPut := fun _ => ⟨rfl, rfl⟩

theorem sdaGet : Statement .sdaGet := fun _ => ⟨rfl, rfl⟩

theorem ackGet : Statement .ackGet := fun _ => ⟨rfl, rfl⟩

theorem bindLatch : Statement .bindLatch := fun _ => ⟨rfl, rfl⟩

theorem endUop : Statement .endUop := fun _ => ⟨rfl, rfl⟩

end Sys2Proof.Laws.EncodeMatchesRow
end

