-- ==== Sys2Proof/Laws/Step.lean ====
section
/-! SUPPORT. What a step can do, said once, and what each meaning answers. -/

namespace Sys2Proof.Machine

/-- The edge after an outcome answers a next state exactly when the meaning did. -/
theorem afterEdge_eq_next (o : Host.Outcome State Fault Refusal) (t : State) :
    afterEdge o = .next t ↔ ∃ u, o = .next u ∧ t = u.edge := by
  cases o <;> simp [afterEdge, eq_comm]

/-- Everything a step that answers a next state can be (R28): a reset, an idle edge, an accepted command, a uop. -/
theorem step_cases (s t : State) (h : step s = .next t) :
    (s.portIn.rst = true ∧ t = s.resetRegs.edge) ∨
    (s.portIn.rst = false ∧ s.busy = false ∧ s.portIn.cmdValid = false ∧ t = s.edge) ∨
    (s.portIn.rst = false ∧ s.busy = false ∧ s.portIn.cmdValid = true ∧
      ∃ i u, decodeCmd s.portIn.cmd = .ok i ∧ exec i s = .next u ∧ t = u.edge) ∨
    (s.portIn.rst = false ∧ s.busy = true ∧
      ∃ c i u, fetchUop s = some c ∧ decodeUop c = .ok i ∧ exec i s = .next u ∧ t = u.edge) := by
  unfold step at h
  cases hr : s.portIn.rst
  · cases hb : s.busy
    · cases hv : s.portIn.cmdValid
      · simp [hr, hb, hv] at h
        exact .inr (.inl ⟨rfl, rfl, rfl, h.symm⟩)
      · simp only [hr, hb, hv, stepCommand, if_true, Bool.false_eq_true, if_false] at h
        split at h
        · rename_i i hi
          obtain ⟨u, hu, rfl⟩ := (afterEdge_eq_next _ _).mp h
          exact .inr (.inr (.inl ⟨rfl, rfl, rfl, i, u, hi, hu, rfl⟩))
        · cases h
    · simp only [hr, hb, stepUop, if_true, Bool.false_eq_true, if_false] at h
      split at h
      · cases h
      · rename_i c hc
        split at h
        · rename_i i hi
          obtain ⟨u, hu, rfl⟩ := (afterEdge_eq_next _ _).mp h
          exact .inr (.inr (.inr ⟨rfl, rfl, c, i, u, hc, hi, hu, rfl⟩))
        · cases h
  · simp [hr] at h
    exact .inl ⟨rfl, h.symm⟩

/-- A busy block with no reset runs the uop it has fetched (R28). -/
theorem step_uop (s : State) (c : UopCode) (i : Instr) (hr : s.portIn.rst = false) (hb : s.busy = true)
    (hc : fetchUop s = some c) (hi : decodeUop c = .ok i) : step s = afterEdge (exec i s) := by
  simp [step, hr, hb, stepUop, hc, hi]

/-- An idle block with no reset runs the command presented (R28). -/
theorem step_command (s : State) (i : Instr) (hr : s.portIn.rst = false) (hb : s.busy = false)
    (hv : s.portIn.cmdValid = true) (hi : decodeCmd s.portIn.cmd = .ok i) : step s = afterEdge (exec i s) := by
  simp [step, hr, hb, hv, stepCommand, hi]

/-- A command needs the binding and then is accepted (R29, R82). -/
theorem acceptBound_eq_next (w : CmdWord) (s t : State) :
    acceptBound w s = .next t ↔ s.bound = true ∧ t = s.accept w := by
  unfold acceptBound
  cases s.bound <;> simp [eq_comm]

/-- Everything the meaning of a uop can be: it always answers a next state, the one listed (R87 to R131). -/
theorem exec_uop (s : State) :
    exec .sdaHold s = .next (s.setLine .sda true false).advance ∧
    exec .sdaRelease s = .next (s.setLine .sda false true).advance ∧
    exec .sclHold s = .next (s.setLine .scl true false).advance ∧
    exec .sclRelease s = .next (s.setLine .scl false true).advance ∧
    exec .sclWait s = .next (if s.envPin .scl then s.advance else s) ∧
    exec .delayFull s = .next (s.delayStep Config.delayFullCycles) ∧
    exec .delayHalf s = .next (s.delayStep Config.delayHalfCycles) ∧
    exec .sdaPut s =
      .next { s.setLine .sda (!msb s.sh) (msb s.sh) with sh := shiftOut s.sh }.advance ∧
    exec .sdaGet s = .next { s with sh := shiftIn s.sh (s.envPin .sda) }.advance ∧
    exec .ackGet s =
      .next (if s.envPin .sda then s.takeNotAcknowledged else { s with nack := false }.advance) ∧
    exec .bindLatch s = .next s.latchBinding.advance ∧
    exec .endUop s = .next (s.complete true) := by
  refine ⟨rfl, rfl, rfl, rfl, rfl, rfl, rfl, ?_, rfl, rfl, rfl, rfl⟩
  cases h : msb s.sh <;> simp [exec, execSdaPut, h, State.hold, State.releaseRegs]

end Sys2Proof.Machine
end

