-- ==== Sys2Proof/Laws/Run.lean ====
section
/-! SUPPORT. Runs of the step function: one more step at either end of a run, the inputs along it, and what one uop does
to a command in flight, for every uop. A whole command is these lemmas one after the other. -/

namespace Sys2Proof.Machine

/-! ### Runs and their inputs -/

/-- A run of `k + 1` steps is a step and a run of `k`. -/
theorem runSteps_succ (k : Nat) (s : State) :
    runSteps (k + 1) s =
      match step s with
      | .next t => runSteps k t
      | .fault f => .fault f
      | .refused r => .refused r := by
  have h := Host.Core.run.eq_def core (k + 1) s
  dsimp only at h
  refine h.trans ?_
  cases hs : step s with
  | next t => rw [show core.step s = .next t from hs]
  | fault f => rw [show core.step s = .fault f from hs]; rfl
  | refused r => rw [show core.step s = .refused r from hs]; rfl

/-- A run of `k + 1` steps is a run of `k` and a step. -/
theorem runSteps_succ_last (k : Nat) (s : State) :
    runSteps (k + 1) s =
      match runSteps k s with
      | .next t => step t
      | .fault f => .fault f
      | .refused r => .refused r := by
  induction k generalizing s with
  | zero =>
    rw [runSteps_succ]
    show _ = step s
    cases step s <;> rfl
  | succ k ih =>
    rw [runSteps_succ, runSteps_succ k]
    cases step s with
    | next t => exact ih t
    | fault f => rfl
    | refused r => rfl

theorem portInAt_zero (s : State) : s.portInAt 0 = s.portIn := by
  unfold State.portInAt State.portIn
  cases s.inputs <;> rfl

/-- After an edge the inputs are those of one edge later. -/
theorem portInAt_edge (v s : State) (hi : v.inputs = s.inputs) (ht : v.tick = s.tick) (j : Nat) :
    v.edge.portInAt j = s.portInAt (j + 1) := by
  unfold State.portInAt
  simp only [State.edge_inputs, State.edge_tick, hi, ht]
  cases s.inputs <;> simp [Nat.add_assoc, Nat.add_comm 1]

/-- An accepted command has taken none of the inputs. -/
theorem acceptBound_ports (w : CmdWord) (s t : State) (h : acceptBound w s = .next t) :
    t.inputs = s.inputs ∧ t.tick = s.tick := by
  rw [acceptBound_eq_next] at h
  simp [h.2]

/-- No meaning touches the record of the outside world: only the edge after it does. -/
theorem exec_ports (i : Instr) (s t : State) (h : exec i s = .next t) :
    t.inputs = s.inputs ∧ t.tick = s.tick := by
  obtain ⟨u1, u2, u3, u4, u5, u6, u7, u8, u9, u10, u11, u12⟩ := exec_uop s
  cases i with
  | start => exact acceptBound_ports _ s t h
  | stop => exact acceptBound_ports _ s t h
  | write d => exact acceptBound_ports _ s t h
  | read l => exact acceptBound_ports _ s t h
  | bind a b =>
    by_cases e : a = b
    · simp [exec, execBind, e] at h
    · simp [exec, execBind, e] at h
      simp [← h]
  | sdaHold => cases u1.symm.trans h; exact ⟨rfl, rfl⟩
  | sdaRelease => cases u2.symm.trans h; exact ⟨rfl, rfl⟩
  | sclHold => cases u3.symm.trans h; exact ⟨rfl, rfl⟩
  | sclRelease => cases u4.symm.trans h; exact ⟨rfl, rfl⟩
  | sclWait => cases u5.symm.trans h; split <;> exact ⟨rfl, rfl⟩
  | delayFull =>
    cases u6.symm.trans h
    rcases s.delayStep_cases Config.delayFullCycles with ⟨_, e⟩ | ⟨_, e⟩ <;> rw [e] <;> exact ⟨rfl, rfl⟩
  | delayHalf =>
    cases u7.symm.trans h
    rcases s.delayStep_cases Config.delayHalfCycles with ⟨_, e⟩ | ⟨_, e⟩ <;> rw [e] <;> exact ⟨rfl, rfl⟩
  | sdaPut => cases u8.symm.trans h; exact ⟨rfl, rfl⟩
  | sdaGet => cases u9.symm.trans h; exact ⟨rfl, rfl⟩
  | ackGet => cases u10.symm.trans h; split <;> exact ⟨rfl, rfl⟩
  | bindLatch =>
    cases u11.symm.trans h
    rcases s.latchBinding_cases with ⟨_, e⟩ | ⟨_, e⟩ <;> rw [e] <;> exact ⟨rfl, rfl⟩
  | endUop => cases u12.symm.trans h; exact ⟨rfl, rfl⟩

/-! ### A command in flight -/

/-- The line state of a pair (direction, level) (R16). -/
def pairState (p : Bool × Bool) : LineState :=
  match p.1, p.2 with
  | true, false => .held
  | false, true => .released
  | false, false => .released0
  | true, true => .drivenHigh

/-- After `k` steps from `s` the block is at uop `u` of the micro-program of `op` and `last`, `sh` in the shift register
and the lines (direction, level) as `sda` and `scl` say; a delay has `d` more steps to go, or none is in progress. -/
structure Running (s : State) (op : Opcode) (last : Bool) (k u : Nat) (d : Option Nat) (sh : Byte)
    (sda scl : Bool × Bool) (t : State) : Prop where
  run : runSteps k s = .next t
  ports : ∀ j, t.portInAt j = s.portInAt (k + j)
  busy : t.busy = true
  op : t.op = op
  last : t.last = last
  upc : t.upc = BitVec.ofNat 6 u
  upcSmall : u < 60
  delay : t.dlyRun = d.isSome ∧ ∀ n, d = some n → t.dly = n
  binding : SameBinding s t
  sh : t.sh = sh
  sda : (getBit t.ddr s.sdaBit, getBit t.port s.sdaBit) = sda
  scl : (getBit t.ddr s.sclBit, getBit t.port s.sclBit) = scl
  others : OtherPinsSame s t
  nack : t.nack = false

section
variable {s : State} {op : Opcode} {last : Bool} {k u : Nat} {d : Option Nat} {sh : Byte} {sda scl : Bool × Bool}
  {t : State}

theorem lineState_of_pairs (hb : SameBinding s t) (h1 : (getBit t.ddr s.sdaBit, getBit t.port s.sdaBit) = sda)
    (h2 : (getBit t.ddr s.sclBit, getBit t.port s.sclBit) = scl) :
    t.lineState .sda = pairState sda ∧ t.lineState .scl = pairState scl := by
  subst h1 h2
  simp only [State.lineState, State.bit, hb.2.1, hb.2.2]
  exact ⟨rfl, rfl⟩

theorem Running.lines (h : Running s op last k u d sh sda scl t) :
    t.lineState .sda = pairState sda ∧ t.lineState .scl = pairState scl :=
  lineState_of_pairs h.binding h.sda h.scl

theorem Running.envPin (h : Running s op last k u d sh sda scl t) (L : Line) : t.envPin L = s.pinAt L k := by
  unfold State.envPin State.pinAt
  rw [← portInAt_zero, h.ports]
  cases L <;> simp [State.bit, h.binding.2.1, h.binding.2.2]

/-- One more step runs the uop at `u`. -/
theorem Running.step (h : Running s op last k u d sh sda scl t) (hr : (s.portInAt k).rst = false) {c : UopCode}
    {i : Instr} {v : State} (hp : (prog op last)[u]? = some c) (hd : decodeUop c = .ok i) (he : exec i t = .next v) :
    runSteps (k + 1) s = .next v.edge ∧ ∀ j, v.edge.portInAt j = s.portInAt (k + 1 + j) := by
  have hr' : t.portIn.rst = false := by rw [← portInAt_zero, h.ports]; simpa using hr
  have hu : u % 64 = u := Nat.mod_eq_of_lt (by have := h.upcSmall; omega)
  have hf : fetchUop t = some c := by
    unfold fetchUop
    rw [h.op, h.last, h.upc, BitVec.toNat_ofNat, show 2 ^ 6 = 64 from rfl, hu, hp]
  constructor
  · rw [runSteps_succ_last, h.run]
    simp only []
    rw [step_uop t c i hr' h.busy hf hd, he]
    rfl
  · intro j
    have := exec_ports i t v he
    rw [portInAt_edge v t this.1 this.2, h.ports]
    congr 1
    omega

theorem Running.upcNext (h : Running s op last k u d sh sda scl t) : upcNext t.upc = BitVec.ofNat 6 (u + 1) := by
  have hu := h.upcSmall
  rw [h.upc, upcNext_of_ne]
  · apply BitVec.eq_of_toNat_eq; simp
  · intro e
    have := congrArg BitVec.toNat e
    simp at this
    omega

/-- A uop that only advances and may change `sh`. -/
theorem Running.advance (h : Running s op last k u none sh sda scl t) (hu : u < 59) (hr : (s.portInAt k).rst = false)
    {c : UopCode} {i : Instr} {v : Byte} (hp : (prog op last)[u]? = some c) (hd : decodeUop c = .ok i)
    (he : exec i t = .next { t with sh := v, upc := Machine.upcNext t.upc }) :
    ∃ t', Running s op last (k + 1) (u + 1) none v sda scl t' := by
  obtain ⟨h1, h2⟩ := h.step hr hp hd he
  exact ⟨_, h1, h2, h.busy, h.op, h.last, h.upcNext, by omega, h.delay, h.binding, rfl, h.sda, h.scl, h.others, h.nack⟩

/-- A uop that writes one line. -/
theorem Running.writeLine (h : Running s op last k u none sh sda scl t) (hu : u < 59) (hne : s.sdaBit ≠ s.sclBit)
    (hr : (s.portInAt k).rst = false) {c : UopCode} {i : Instr} (L : Line) {dir level : Bool} {v : Byte}
    (hp : (prog op last)[u]? = some c) (hd : decodeUop c = .ok i)
    (he : exec i t = .next { t.setLine L dir level with sh := v, upc := Machine.upcNext t.upc }) :
    ∃ t', Running s op last (k + 1) (u + 1) none v (if L = .sda then (dir, level) else sda)
      (if L = .scl then (dir, level) else scl) t' := by
  obtain ⟨h1, h2⟩ := h.step hr hp hd he
  obtain ⟨b1, b2, b3⟩ := h.binding
  refine ⟨_, h1, h2, h.busy, h.op, h.last, h.upcNext, by omega, h.delay, h.binding, rfl, ?_, ?_, ?_, h.nack⟩
  · rw [← h.sda]
    cases L <;> simp [State.bit, b2, b3, hne]
  · rw [← h.scl]
    cases L <;> simp [State.bit, b2, b3, hne.symm]
  · intro b n1 n2
    have := h.others b n1 n2
    cases L <;> simp [State.bit, b2, b3, n1, n2, this]

theorem Running.sdaHold (h : Running s op last k u none sh sda scl t) (hu : u < 59) (hne : s.sdaBit ≠ s.sclBit)
    (hr : (s.portInAt k).rst = false) (hp : (prog op last)[u]? = some Uop.sdaHold) :
    ∃ t', Running s op last (k + 1) (u + 1) none sh (true, false) scl t' :=
  h.writeLine hu hne hr .sda hp (i := .sdaHold) rfl (by rw [← h.sh]; exact (exec_uop t).1)

theorem Running.sdaRelease (h : Running s op last k u none sh sda scl t) (hu : u < 59) (hne : s.sdaBit ≠ s.sclBit)
    (hr : (s.portInAt k).rst = false) (hp : (prog op last)[u]? = some Uop.sdaRelease) :
    ∃ t', Running s op last (k + 1) (u + 1) none sh (false, true) scl t' :=
  h.writeLine hu hne hr .sda hp (i := .sdaRelease) rfl (by rw [← h.sh]; exact (exec_uop t).2.1)

theorem Running.sclHold (h : Running s op last k u none sh sda scl t) (hu : u < 59) (hne : s.sdaBit ≠ s.sclBit)
    (hr : (s.portInAt k).rst = false) (hp : (prog op last)[u]? = some Uop.sclHold) :
    ∃ t', Running s op last (k + 1) (u + 1) none sh sda (true, false) t' :=
  h.writeLine hu hne hr .scl hp (i := .sclHold) rfl (by rw [← h.sh]; exact (exec_uop t).2.2.1)

theorem Running.sclRelease (h : Running s op last k u none sh sda scl t) (hu : u < 59) (hne : s.sdaBit ≠ s.sclBit)
    (hr : (s.portInAt k).rst = false) (hp : (prog op last)[u]? = some Uop.sclRelease) :
    ∃ t', Running s op last (k + 1) (u + 1) none sh sda (false, true) t' :=
  h.writeLine hu hne hr .scl hp (i := .sclRelease) rfl (by rw [← h.sh]; exact (exec_uop t).2.2.2.1)

theorem Running.sdaPut (h : Running s op last k u none sh sda scl t) (hu : u < 59) (hne : s.sdaBit ≠ s.sclBit)
    (hr : (s.portInAt k).rst = false) (hp : (prog op last)[u]? = some Uop.sdaPut) :
    ∃ t', Running s op last (k + 1) (u + 1) none (shiftOut sh) (!msb sh, msb sh) scl t' :=
  h.writeLine hu hne hr .sda hp (i := .sdaPut) rfl (by rw [← h.sh]; exact (exec_uop t).2.2.2.2.2.2.2.1)

theorem Running.sdaGet (h : Running s op last k u none sh sda scl t) (hu : u < 59) (hr : (s.portInAt k).rst = false)
    (hp : (prog op last)[u]? = some Uop.sdaGet) :
    ∃ t', Running s op last (k + 1) (u + 1) none (shiftIn sh (s.pinAt .sda k)) sda scl t' := by
  refine h.advance hu hr hp (i := .sdaGet) rfl ?_
  rw [(exec_uop t).2.2.2.2.2.2.2.2.1, h.envPin, ← h.sh]
  rfl

theorem Running.ackLow (h : Running s op last k u none sh sda scl t) (hu : u < 59) (hr : (s.portInAt k).rst = false)
    (hp : (prog op last)[u]? = some Uop.ackGet) (hw : s.pinAt .sda k = false) :
    ∃ t', Running s op last (k + 1) (u + 1) none sh sda scl t' := by
  refine h.advance hu hr hp (i := .ackGet) rfl ?_
  rw [(exec_uop t).2.2.2.2.2.2.2.2.2.1, h.envPin, hw, if_neg (by simp), ← h.sh,
    show { t with nack := false } = t by rw [← h.nack]]
  rfl

theorem Running.waitHigh (h : Running s op last k u none sh sda scl t) (hu : u < 59) (hr : (s.portInAt k).rst = false)
    (hp : (prog op last)[u]? = some Uop.sclWait) (hw : s.pinAt .scl k = true) :
    ∃ t', Running s op last (k + 1) (u + 1) none sh sda scl t' := by
  refine h.advance hu hr hp (i := .sclWait) rfl ?_
  rw [(exec_uop t).2.2.2.2.1, h.envPin, if_pos hw, ← h.sh]
  rfl

theorem Running.waitLow (h : Running s op last k u none sh sda scl t) (hr : (s.portInAt k).rst = false)
    (hp : (prog op last)[u]? = some Uop.sclWait) (hw : s.pinAt .scl k = false) :
    ∃ t', Running s op last (k + 1) u none sh sda scl t' := by
  obtain ⟨h1, h2⟩ := h.step hr hp (i := .sclWait) rfl (by rw [(exec_uop t).2.2.2.2.1, h.envPin, hw])
  exact ⟨_, h1, h2, h.busy, h.op, h.last, h.upc, h.upcSmall, h.delay, h.binding, h.sh, h.sda, h.scl, h.others, h.nack⟩

/-- Inside a wait, after `j` low polls (R91). -/
theorem Running.waiting (j : Nat) (h : Running s op last k u none sh sda scl t)
    (hr : ∀ i < j, (s.portInAt (k + i)).rst = false) (hp : (prog op last)[u]? = some Uop.sclWait)
    (hw : ∀ i < j, s.pinAt .scl (k + i) = false) : ∃ t', Running s op last (k + j) u none sh sda scl t' := by
  induction j with
  | zero => exact ⟨t, h⟩
  | succ j ih =>
    obtain ⟨t', h'⟩ := ih (fun i hi => hr i (by omega)) (fun i hi => hw i (by omega))
    exact h'.waitLow (hr j (by omega)) hp (hw j (by omega))

/-- A whole wait of `n` low polls and a high one (R91). -/
theorem Running.wait (n : Nat) (h : Running s op last k u none sh sda scl t) (hu : u < 59)
    (hr : ∀ j < n + 1, (s.portInAt (k + j)).rst = false) (hp : (prog op last)[u]? = some Uop.sclWait)
    (hw : WaitAnswered s k n) : ∃ t', Running s op last (k + n + 1) (u + 1) none sh sda scl t' := by
  obtain ⟨t', h'⟩ := h.waiting n (fun i hi => hr i (by omega)) hp hw.1
  exact h'.waitHigh hu (hr n (by omega)) hp hw.2

/-- A delay uop of length `n`. -/
abbrev DelayUop (c : UopCode) (n : Nat) : Prop :=
  (c = Uop.delayFull ∧ n = Config.delayFullCycles) ∨ (c = Uop.delayHalf ∧ n = Config.delayHalfCycles)

theorem DelayUop.exec {c : UopCode} {n : Nat} (hc : DelayUop c n) :
    1 ≤ n ∧ ∃ i, decodeUop c = .ok i ∧ ∀ t : State, exec i t = .next (t.delayStep n) := by
  rcases hc with ⟨rfl, rfl⟩ | ⟨rfl, rfl⟩
  · exact ⟨by simp [Config.delayFullCycles], .delayFull, rfl, fun t => rfl⟩
  · exact ⟨by simp [Config.delayHalfCycles], .delayHalf, rfl, fun t => rfl⟩

/-- One step of a delay with `m` steps to go: at the first of `n` steps, or inside. -/
theorem Running.delayStep {c : UopCode} {n : Nat} (hc : DelayUop c n) (h : Running s op last k u d sh sda scl t)
    (hu : u < 59) (hr : (s.portInAt k).rst = false) (hp : (prog op last)[u]? = some c) (m : Nat)
    (hm : m = d.getD n) :
    (m ≤ 1 → ∃ t', Running s op last (k + 1) (u + 1) none sh sda scl t') ∧
    (1 < m → ∃ t', Running s op last (k + 1) u (some (m - 1)) sh sda scl t') := by
  obtain ⟨_, i, hi, he⟩ := hc.exec
  obtain ⟨h1, h2⟩ := h.step hr hp hi (he t)
  have hcount : t.delayCount n = m := by
    unfold State.delayCount
    rw [h.delay.1]
    cases d with
    | none => simp [hm]
    | some x => simp [hm, h.delay.2 x rfl]
  rcases t.delayStep_cases n with ⟨hle, e⟩ | ⟨hlt, e⟩ <;> rw [e] at h1 h2
  · rw [hcount] at hle
    refine ⟨fun _ => ?_, fun _ => by omega⟩
    exact ⟨_, h1, h2, h.busy, h.op, h.last, h.upcNext, by omega, ⟨rfl, by simp⟩, h.binding, h.sh, h.sda, h.scl,
      h.others, h.nack⟩
  · rw [hcount] at hlt
    refine ⟨fun _ => by omega, fun _ => ?_⟩
    exact ⟨_, h1, h2, h.busy, h.op, h.last, h.upc, h.upcSmall, ⟨rfl, by simp [hcount]⟩, h.binding, h.sh, h.sda,
      h.scl, h.others, h.nack⟩

/-- Inside a delay, `j` of its `n` steps done. -/
theorem Running.delayInside {c : UopCode} {n : Nat} (hc : DelayUop c n) (h : Running s op last k u none sh sda scl t)
    (hu : u < 59) (hr : ∀ j < n, (s.portInAt (k + j)).rst = false) (hp : (prog op last)[u]? = some c) (j : Nat)
    (h1 : 1 ≤ j) (hj : j < n) : ∃ t', Running s op last (k + j) u (some (n - j)) sh sda scl t' := by
  induction j with
  | zero => omega
  | succ j ih =>
    by_cases h0 : j = 0
    · subst h0
      exact (h.delayStep hc hu (hr 0 (by omega)) hp n rfl).2 (by omega)
    · obtain ⟨t', h'⟩ := ih (by omega) (by omega)
      have := (h'.delayStep hc hu (hr j (by omega)) hp (n - j) rfl).2 (by omega)
      rwa [show n - j - 1 = n - (j + 1) by omega] at this

/-- A whole delay: its `n` steps change neither the lines nor `sh` (R100, R101, R102). -/
theorem Running.delayed {c : UopCode} {n : Nat} (hc : DelayUop c n) (h : Running s op last k u none sh sda scl t)
    (hu : u < 59) (hr : ∀ j < n, (s.portInAt (k + j)).rst = false) (hp : (prog op last)[u]? = some c) :
    ∃ t', Running s op last (k + n) (u + 1) none sh sda scl t' := by
  have hn := hc.exec.1
  by_cases h1 : n = 1
  · subst h1
    exact (h.delayStep hc hu (hr 0 (by omega)) hp 1 rfl).1 (by omega)
  · obtain ⟨t', h'⟩ := h.delayInside hc hu hr hp (n - 1) (by omega) (by omega)
    have := (h'.delayStep hc hu (hr (n - 1) (by omega)) hp 1 (by simp; omega)).1 (by omega)
    rwa [show k + (n - 1) + 1 = k + n by omega] at this

/-- The lines are the same before a delay, at every step inside it and after it (R102). -/
theorem Running.delayLines {c : UopCode} {n : Nat} (hc : DelayUop c n) (h : Running s op last k u none sh sda scl t)
    (hu : u < 59) (hr : ∀ j < n, (s.portInAt (k + j)).rst = false) (hp : (prog op last)[u]? = some c) (j : Nat)
    (hj : j ≤ n) :
    ∃ t', runSteps (k + j) s = .next t' ∧ t'.lineState .sda = pairState sda ∧ t'.lineState .scl = pairState scl := by
  rcases Nat.eq_zero_or_pos j with rfl | h0
  · exact ⟨t, h.run, h.lines⟩
  rcases Nat.lt_or_eq_of_le hj with h1 | rfl
  · obtain ⟨t', h'⟩ := h.delayInside hc hu hr hp j h0 h1
    exact ⟨t', h'.run, h'.lines⟩
  · obtain ⟨t', h'⟩ := h.delayed hc hu hr hp
    exact ⟨t', h'.run, h'.lines⟩

/-- END: the response, the status, the lines as they were (R31). -/
theorem Running.finish (h : Running s op last k u none sh sda scl t) (hr : (s.portInAt k).rst = false)
    (hp : (prog op last)[u]? = some Uop.endUop) :
    ∃ t', runSteps (k + 1) s = .next t' ∧ t'.busy = false ∧ t'.rspValid = true ∧ t'.rspOk = true ∧
      t'.nack = false ∧ t'.sh = sh ∧ t'.rspData = sh ∧ t'.phase = phaseAfter op t.phase ∧ SameBinding s t' ∧
      OtherPinsSame s t' ∧ t'.lineState .sda = pairState sda ∧ t'.lineState .scl = pairState scl := by
  obtain ⟨h1, _⟩ := h.step hr hp (i := .endUop) rfl rfl
  refine ⟨_, h1, rfl, rfl, rfl, h.nack, h.sh, h.sh, by rw [← h.op]; rfl, h.binding, h.others, ?_⟩
  exact lineState_of_pairs (t := (t.complete true).edge) h.binding h.sda h.scl

/-- The first step of a run: an idle block accepts the command presented (R29). -/
theorem Running.accepted {w : CmdWord} {i : Instr} (hp : Presented w s) (hr : (s.portInAt 0).rst = false)
    (hd : decodeCmd w = .ok i) (he : exec i s = .next (s.accept w)) :
    ∃ t, Running s (opcOf w) (w.getLsbD 0) 1 0 none (argOf w) (getBit s.ddr s.sdaBit, getBit s.port s.sdaBit)
      (getBit s.ddr s.sclBit, getBit s.port s.sclBit) t := by
  rw [portInAt_zero] at hr
  obtain ⟨h1, h2, h3, h4⟩ := hp
  have hs := step_command s i hr h1 h3 (by rw [h4]; exact hd)
  rw [he] at hs
  refine ⟨_, (runSteps_succ_last 0 s).trans hs, ?_, rfl, rfl, rfl, rfl, by omega, ⟨h2, by simp⟩, ⟨rfl, rfl, rfl⟩, rfl,
    rfl, rfl, fun b _ _ => ⟨rfl, rfl⟩, rfl⟩
  intro j
  rw [Nat.add_comm 1 j]
  exact portInAt_edge _ s rfl rfl j

end

end Sys2Proof.Machine
end

