-- ==== Sys2Proof/Laws/Txn.lean ====
section
/-! SUPPORT. The host's transactions: the READs of a read transaction, the address bytes, what the host's record becomes
at a response. -/

namespace Sys2Proof.Machine

theorem addrByte_write : ∀ slave : SlaveAddr, addrByte slave false = slave.setWidth 8 <<< 1 := by decide

theorem addrByte_read : ∀ slave : SlaveAddr, addrByte slave true = (slave.setWidth 8 <<< 1) ||| 0x01#8 := by decide

@[simp] theorem readCommands_length (n : Nat) : (readCommands n).length = n := by
  induction n using readCommands.induct with
  | case1 => rfl
  | case2 => rfl
  | case3 n ih => simp [readCommands, ih]

/-- Only READs, the last one with `last` = 1 (R142). -/
theorem readCommands_getElem? (n j : Nat) (hj : j < n) :
    (readCommands n)[j]? = some (.read (decide (j + 1 = n))) := by
  induction n using readCommands.induct generalizing j with
  | case1 => omega
  | case2 =>
    obtain rfl : j = 0 := by omega
    rfl
  | case3 n ih =>
    cases j with
    | zero => simp [readCommands]
    | succ j => simp [readCommands, ih j (by omega)]

theorem isRead_of_mem_readCommands (n : Nat) (c : Instr) (hc : c ∈ readCommands n) : ∃ last, c = .read last := by
  obtain ⟨j, hj, rfl⟩ := List.mem_iff_getElem.mp hc
  have hj' : j < n := by simpa using hj
  exact ⟨_, Option.some.inj ((List.getElem?_eq_getElem hj).symm.trans (readCommands_getElem? n j hj'))⟩

/-- What the host still has to issue after a response is a part of what it had. -/
theorem HostProg.mem_respond_todo (h : HostProg) (ok : Bool) (data : Byte) (c : Instr)
    (hc : c ∈ (h.respond ok data).todo) : c ∈ h.todo := by
  unfold HostProg.respond at hc
  cases hd : h.todo with
  | nil => simp [hd] at hc
  | cons d ds =>
    simp only [hd] at hc
    split at hc
    · simp at hc
    · exact List.mem_cons_of_mem d hc

end Sys2Proof.Machine
end

