-- ==== Sys2Proof/Tests/Slice0.lean ====
section
/-! SUPPORT. Tests. Expected values are the spec's own vectors (spec/95_test_vectors.md; a test names its vector) or
read off a rule. The lines are on bits 4 and 5, as in the vectors. Then one witness for every statement that has
hypotheses: a concrete state and operands that meet them all. -/

namespace Sys2Proof.Tests

open Sys2Proof.Machine

/-! ### Helpers -/

/-- A bound state with the given direction and output registers. -/
def lines (ddr port : Byte) : State :=
  { State.reset with bound := true, sdaBit := 4#3, sclBit := 5#3, ddr := ddr, port := port }

/-- The state with `PIN` at the coming edge, and no reset and no command. -/
def withPin (s : State) (pin : Byte) : State := s.withPortIn ⟨false, false, 0#12, pin⟩

/-- The state running, at index `u` of the micro-program of `op` with `last` = 0. -/
def running (s : State) (op : Opcode) (u : Upc) : State := { s with busy := true, op := op, upc := u }

/-- The idle state with a command word presented. -/
def presented (s : State) (w : CmdWord) (pin : Byte) : State := s.withPortIn ⟨false, true, w, pin⟩

/-- A view of the next state, if the outcome is one. -/
def view {α : Type} (f : State → α) (o : Host.Outcome State Fault Refusal) : Option α :=
  match o with
  | .next t => some (f t)
  | .fault _ => none
  | .refused _ => none

/-- Whether an outcome is a refusal of a reserved word. -/
def refusedWord (o : Host.Outcome State Fault Refusal) : Bool :=
  match o with
  | .refused (.reservedWord _) => true
  | .refused _ => false
  | .next _ => false
  | .fault _ => false

/-- Whether an outcome is a refusal for want of the binding. -/
def refusedUnbound (o : Host.Outcome State Fault Refusal) : Bool :=
  match o with
  | .refused .commandBeforeBind => true
  | .refused _ => false
  | .next _ => false
  | .fault _ => false

/-! ### Words -/

/-- The one ill-formed term: BIND with equal positions (R64). -/
theorem test_wf_refuses_equal_positions : ¬ (Instr.bind 3#3 3#3).WellFormed ∧ (Instr.bind 4#3 5#3).WellFormed := by
  decide

/-- V-E1 to V-E11, written out bit by bit: opcode, then argument. -/
theorem test_legal_words :
    decodeCmd 0b0001_00000000#12 = .ok .start ∧ decodeCmd 0b0010_00000000#12 = .ok .stop ∧
    decodeCmd 0b0011_00000000#12 = .ok (.write 0x00#8) ∧ decodeCmd 0b0011_11111111#12 = .ok (.write 0xFF#8) ∧
    decodeCmd 0b0011_10100101#12 = .ok (.write 0xA5#8) ∧ decodeCmd 0b0100_00000000#12 = .ok (.read false) ∧
    decodeCmd 0b0100_00000001#12 = .ok (.read true) ∧ decodeCmd 0b1000_0101_0100#12 = .ok (.bind 4#3 5#3) ∧
    decodeCmd 0b1000_0001_0000#12 = .ok (.bind 0#3 1#3) ∧ decodeCmd 0b1000_0000_0111#12 = .ok (.bind 7#3 0#3) ∧
    decodeCmd 0b1000_0111_0000#12 = .ok (.bind 0#3 7#3) := by decide

/-- V-E12 to V-E16 and V-E18 to V-E21. -/
theorem test_reserved_words :
    decodeCmd 0x000#12 = .error .reservedOpcode ∧ decodeCmd 0x101#12 = .error .argNotZero ∧
    decodeCmd 0x2FF#12 = .error .argNotZero ∧ decodeCmd 0x402#12 = .error .readArgNotZero ∧
    decodeCmd 0x480#12 = .error .readArgNotZero ∧ decodeCmd 0x844#12 = .error .bindEqualPositions ∧
    decodeCmd 0x800#12 = .error .bindEqualPositions ∧ decodeCmd 0x85C#12 = .error .bindMustBeZero ∧
    decodeCmd 0x8D4#12 = .error .bindMustBeZero := by decide

/-- V-E17. -/
theorem test_reserved_opcodes :
    ∀ w ∈ [0x500#12, 0x600#12, 0x700#12, 0x900#12, 0xA00#12, 0xB00#12, 0xC00#12, 0xD00#12, 0xE00#12, 0xF00#12],
      decodeCmd w = .error .reservedOpcode := by decide

/-- The uop codes of R65, bit by bit. -/
theorem test_uop_codes :
    decodeUop 0b0000#4 = .ok .sdaHold ∧ decodeUop 0b0001#4 = .ok .sdaRelease ∧ decodeUop 0b0010#4 = .ok .sclHold ∧
    decodeUop 0b0011#4 = .ok .sclRelease ∧ decodeUop 0b0100#4 = .ok .sclWait ∧ decodeUop 0b0101#4 = .ok .delayFull ∧
    decodeUop 0b0110#4 = .ok .delayHalf ∧ decodeUop 0b0111#4 = .ok .sdaPut ∧ decodeUop 0b1000#4 = .ok .sdaGet ∧
    decodeUop 0b1001#4 = .ok .ackGet ∧ decodeUop 0b1010#4 = .ok .bindLatch ∧ decodeUop 0b1011#4 = .ok .endUop ∧
    decodeUop 0b1100#4 = .error .unusedUop := by decide

/-- V-E, its last line: 316 of the 4096 words are legal. -/
theorem test_count_of_legal_words :
    ((List.range 4096).filter fun n => (decodeCmd (BitVec.ofNat 12 n)).toOption.isSome).length = 316 := by
  decide +kernel

/-- The spellings of R67. -/
theorem test_spellings :
    spellings (.write 0xA5#8) = ["WRITE 0xA5"] ∧ spellings (.read true) = ["READ nack", "READ last=1"] ∧
    spellings (.bind 4#3 5#3) = ["BIND sda=4, scl=5"] := by decide

/-- The host's numbering: a uop is four bits of a byte, a command twelve of two. -/
theorem test_table_words :
    decodeTableWord 8 0xB = some .endUop ∧ decodeTableWord 16 0x854 = some (.bind 4#3 5#3) ∧
    decodeTableWord 16 0x800 = none := by decide

/-- A placed word is the next to run: from reset, BIND is accepted and SDA_PUT puts a zero bit. -/
theorem test_placed_words_run :
    view (fun t => (t.busy, t.op, t.sh)) (step (State.reset.withFetchWord 16 0x854)) = some (true, 0x8#4, 0x54#8) ∧
    view (fun t => (t.ddr, t.port, t.upc)) (step (State.reset.withFetchWord 8 0x7)) =
      some (0x01#8, 0x00#8, 1#6) := by decide

/-! ### Commands -/

/-- V-B1, the accept row; BIND needs no binding. -/
theorem test_bind_accept :
    view (fun t => (t.op, t.last, t.sh, t.busy, t.upc, t.bound)) (exec (.bind 4#3 5#3) State.reset) =
      some (0x8#4, false, 0x54#8, true, 0#6, false) := by decide

/-- V-B3: before BIND the four other commands are refused. -/
theorem test_unbound_refused :
    ∀ w ∈ [0x100#12, 0x200#12, 0x3A5#12, 0x400#12],
      refusedUnbound (step (presented State.reset w 0x00#8)) = true := by decide

/-- V-E12 and V-E18 at the command port. -/
theorem test_reserved_refused :
    refusedWord (step (presented (lines 0x00#8 0x30#8) 0x000#12 0x30#8)) = true ∧
    refusedWord (step (presented (lines 0x00#8 0x30#8) 0x844#12 0x30#8)) = true := by decide

/-- V-S1 and V-S3, the accept rows. -/
theorem test_start_stop_accept :
    view (fun t => (t.op, t.sh, t.busy, t.rspValid)) (step (presented (lines 0x00#8 0x00#8) 0x100#12 0x30#8)) =
      some (0x1#4, 0x00#8, true, false) ∧
    view (fun t => (t.op, t.sh, t.busy, t.rspValid)) (step (presented (lines 0x30#8 0x00#8) 0x200#12 0x00#8)) =
      some (0x2#4, 0x00#8, true, false) := by decide

/-- V-W1 and V-R1, the accept rows: the argument goes to `sh`, its bit 0 to `last`. -/
theorem test_write_read_accept :
    view (fun t => (t.op, t.last, t.sh)) (step (presented (lines 0x30#8 0x00#8) 0x3A5#12 0x00#8)) =
      some (0x3#4, true, 0xA5#8) ∧
    view (fun t => (t.op, t.last, t.sh)) (step (presented (lines 0x30#8 0x00#8) 0x401#12 0x00#8)) =
      some (0x4#4, true, 0x01#8) := by decide

/-- V-X2: a command presented to a busy block is not taken. -/
theorem test_busy_ignores_command :
    view (fun t => (t.op, t.upc)) (step (presented (running (lines 0x00#8 0x30#8) 0x1#4 4#6) 0x200#12 0x30#8)) =
      some (0x1#4, 5#6) := by decide

/-- V-X3: a reset in the middle of START. -/
theorem test_reset_step :
    view (fun t => (t.ddr, t.port, t.busy, t.bound, t.upc, t.phase))
      (step ((running (lines 0x10#8 0x20#8) 0x1#4 5#6).withPortIn ⟨true, true, 0x100#12, 0x30#8⟩)) =
      some (0x00#8, 0x00#8, false, false, 0#6, Phase.idle) := by decide

/-! ### Line control -/

/-- V-L1, V-L2, V-L3. -/
theorem test_sda_hold :
    view (fun t => (t.ddr, t.port)) (exec .sdaHold (lines 0x00#8 0x30#8)) = some (0x10#8, 0x20#8) ∧
    view (fun t => (t.ddr, t.port)) (exec .sdaHold (lines 0x00#8 0x00#8)) = some (0x10#8, 0x00#8) ∧
    view (fun t => (t.ddr, t.port)) (exec .sdaHold (lines 0x30#8 0x00#8)) = some (0x30#8, 0x00#8) := by decide

/-- V-L4, V-L5, V-L6. -/
theorem test_sda_release :
    view (fun t => (t.ddr, t.port)) (exec .sdaRelease (lines 0x30#8 0x00#8)) = some (0x20#8, 0x10#8) ∧
    view (fun t => (t.ddr, t.port)) (exec .sdaRelease (lines 0x00#8 0x00#8)) = some (0x00#8, 0x10#8) ∧
    view (fun t => (t.ddr, t.port)) (exec .sdaRelease (lines 0x00#8 0x30#8)) = some (0x00#8, 0x30#8) := by decide

/-- V-L7, V-L8. -/
theorem test_scl_hold :
    view (fun t => (t.ddr, t.port)) (exec .sclHold (lines 0x10#8 0x20#8)) = some (0x30#8, 0x00#8) ∧
    view (fun t => (t.ddr, t.port)) (exec .sclHold (lines 0x00#8 0x30#8)) = some (0x20#8, 0x10#8) := by decide

/-- V-L9, V-L10. -/
theorem test_scl_release :
    view (fun t => (t.ddr, t.port)) (exec .sclRelease (lines 0x30#8 0x00#8)) = some (0x10#8, 0x20#8) ∧
    view (fun t => (t.ddr, t.port)) (exec .sclRelease (lines 0x00#8 0x10#8)) = some (0x00#8, 0x30#8) := by decide

/-- V-L11, V-L12: only `PIN[5]` counts. -/
theorem test_scl_wait :
    view State.upc (exec .sclWait (withPin (lines 0x00#8 0x30#8) 0x20#8)) = some 1#6 ∧
    view State.upc (exec .sclWait (withPin (lines 0x00#8 0x30#8) 0xDF#8)) = some 0#6 := by decide

/-- The last lines of V-L: another binding moves other bits. -/
theorem test_sda_hold_other_binding :
    view (fun t => (t.ddr, t.port))
      (exec .sdaHold { State.reset with bound := true, sclBit := 1#3, port := 0x03#8 }) =
      some (0x01#8, 0x02#8) := by decide

/-! ### Delays -/

/-- V-D1 and V-D2: one step of a delay of length 1, and the three steps of a delay of length 3. -/
theorem test_delay_full :
    (let t := (lines 0x00#8 0x30#8).delayStep 1; (t.dly, t.dlyRun, t.upc) = (0, false, 1#6)) ∧
    (let t := (lines 0x00#8 0x30#8).delayStep 3; (t.dly, t.dlyRun, t.upc) = (2, true, 0#6)) ∧
    (let t := ((lines 0x00#8 0x30#8).delayStep 3).delayStep 3; (t.dly, t.dlyRun, t.upc) = (1, true, 0#6)) ∧
    (let t := (((lines 0x00#8 0x30#8).delayStep 3).delayStep 3).delayStep 3;
      (t.dly, t.dlyRun, t.upc) = (0, false, 1#6)) := by decide

/-- The last step of a delay in progress is the same for every length (V-D3, its second step). -/
theorem test_delay_half_last_step :
    view (fun t => (t.dly, t.dlyRun, t.upc)) (exec .delayHalf { lines 0x00#8 0x30#8 with dly := 1, dlyRun := true }) =
      some (0, false, 1#6) := by decide

/-! ### Data -/

/-- V-W1, its first bit: 0xA5 shows a 1 and leaves 0x4A; then V-W3, a 0. -/
theorem test_sda_put :
    view (fun t => (t.ddr, t.port, t.sh)) (exec .sdaPut { lines 0x30#8 0x00#8 with sh := 0xA5#8 }) =
      some (0x20#8, 0x10#8, 0x4A#8) ∧
    view (fun t => (t.ddr, t.port, t.sh)) (exec .sdaPut { lines 0x20#8 0x10#8 with sh := 0x4A#8 }) =
      some (0x30#8, 0x00#8, 0x94#8) := by decide

/-- V-R1, step 48: a sample 0 turns 0xD9 into 0xB2; a sample 1 sets bit 0. -/
theorem test_sda_get :
    view State.sh (exec .sdaGet { withPin (lines 0x00#8 0x30#8) 0x20#8 with sh := 0xD9#8 }) = some 0xB2#8 ∧
    view State.sh (exec .sdaGet { withPin (lines 0x00#8 0x30#8) 0x30#8 with sh := 0x00#8 }) = some 0x01#8 := by decide

/-- V-W1, step 53: acknowledged, the command goes on. -/
theorem test_ack_get_low :
    view (fun t => (t.nack, t.busy, t.upc)) (step (withPin (running (lines 0x00#8 0x30#8) 0x3#4 52#6) 0x20#8)) =
      some (false, true, 53#6) := by decide

/-- V-X1: not acknowledged, the command ends with failure and the lines stay. -/
theorem test_ack_get_high :
    view (fun t => ((t.busy, t.rspValid, t.rspOk, t.nack), (t.phase, t.upc, t.ddr, t.port)))
      (step (withPin (running (lines 0x00#8 0x30#8) 0x3#4 52#6) 0x30#8)) =
      some ((false, true, false, true), (Phase.byteTransferWrite, 52#6, 0x00#8, 0x30#8)) := by decide

/-! ### Binding and end -/

/-- V-B1, step 1, and V-B2, step 1: the first caller wins. -/
theorem test_bind_latch :
    view (fun t => (t.bound, t.sdaBit, t.sclBit)) (exec .bindLatch { State.reset with sh := 0x54#8 }) =
      some (true, 4#3, 5#3) ∧
    view (fun t => (t.bound, t.sdaBit, t.sclBit)) (exec .bindLatch { lines 0x00#8 0x00#8 with sh := 0x10#8 }) =
      some (true, 4#3, 5#3) := by decide

/-- V-R1, step 57. -/
theorem test_end :
    view (fun t => ((t.busy, t.rspValid, t.rspOk), (t.rspData, t.phase, t.ddr, t.port)))
      (exec .endUop { running (lines 0x20#8 0x10#8) 0x4#4 56#6 with sh := 0xB2#8, last := true }) =
      some ((false, true, true), (0xB2#8, Phase.byteTransferRead, 0x20#8, 0x10#8)) := by decide

/-! ### The host's programs -/

/-- S8: the address bytes. -/
theorem test_address_bytes :
    addrByte 0x20#7 false = 0x40#8 ∧ addrByte 0x20#7 true = 0x41#8 ∧ addrByte 0x7F#7 true = 0xFF#8 := by decide

/-- P2 and P4, the words issued: a one-byte read and a probe. -/
theorem test_read_txn_words :
    (readTxn 0x20#7 0x00#8 1).map commandWord =
      [0x100#12, 0x340#12, 0x300#12, 0x200#12, 0x100#12, 0x341#12, 0x401#12, 0x200#12] ∧
    (readTxn 0x20#7 0x00#8 0).map commandWord =
      [0x100#12, 0x340#12, 0x300#12, 0x200#12, 0x100#12, 0x341#12, 0x200#12] := by decide

/-- P1, the words issued. -/
theorem test_write_txn_words :
    (writeTxn 0x20#7 0x00#8 [0x05#8]).map commandWord =
      [0x100#12, 0x340#12, 0x300#12, 0x305#12, 0x200#12] := by decide

/-! ### Witnesses: states and operands that meet the hypotheses of the statements -/

/-- DecodeEncodeGivesBackEveryInstruction, EncodeDecodeGivesBackEveryWord. -/
theorem test_witness_round_trips :
    (Instr.bind 7#3 0#3).WellFormed ∧ (Instr.write 0xFF#8).WellFormed ∧
    decode (.cmd 0x807#12) = .ok (.bind 7#3 0#3) ∧ decode (.uop 0xB#4) = .ok .endUop := by decide

/-- CommandWordsDecode, UopCodesDecode, BindRunsToItsEnd (positions). -/
theorem test_witness_words :
    (7#3 : BitPos) ≠ 0#3 ∧ 0xC ≤ (0xC#4 : UopCode).toNat ∧ 0xC ≤ (0xF#4 : UopCode).toNat ∧
    (0xB#4 : UopCode) ∈ prog 0x8#4 false ∧ (0x9#4 : UopCode) ∈ prog 0x3#4 true := by decide

/-- ReservedWordsAreRefused; AcceptingACommand: its three clauses, the last one with and without the binding. -/
theorem test_witness_commands :
    (let s := presented (lines 0x00#8 0x30#8) 0x402#12 0x30#8
     s.portIn.rst = false ∧ s.busy = false ∧ s.portIn.cmdValid = true ∧ ¬ LegalWord s.portIn.cmd) ∧
    (let s := presented State.reset 0x3FF#12 0x00#8
     s.portIn.rst = false ∧ s.busy = false ∧ s.portIn.cmdValid = true ∧ s.bound = false ∧
       s.portIn.cmd.extractLsb' 8 4 ≠ 0x8#4) ∧
    (let s := presented State.reset 0x807#12 0x00#8
     s.portIn.rst = false ∧ s.busy = false ∧ s.portIn.cmdValid = true ∧ LegalWord s.portIn.cmd ∧ s.bound = false ∧
       s.portIn.cmd.extractLsb' 8 4 = 0x8#4) ∧
    (let s := presented (lines 0x00#8 0x30#8) 0x3FF#12 0x30#8
     s.portIn.rst = false ∧ s.busy = false ∧ s.portIn.cmdValid = true ∧ LegalWord s.portIn.cmd ∧ s.bound = true) := by
  decide

/-- EveryCommandIsAccepted, CommandsBeforeBindAreRefused. -/
theorem test_witness_binding : (lines 0x00#8 0x00#8).bound = true ∧ State.reset.bound = false := by decide

/-- ResetStepSetsEveryRegister and StepRunsTheDecodedInstruction: a reset, an idle edge, a command, a uop. -/
theorem test_witness_step :
    (let s := (running (lines 0x00#8 0x30#8) 0x1#4 4#6).withPortIn ⟨true, true, 0x100#12, 0x30#8⟩
     s.portIn.rst = true) ∧
    (let s := withPin (lines 0x00#8 0x30#8) 0x30#8
     s.portIn.rst = false ∧ s.busy = false ∧ s.portIn.cmdValid = false) ∧
    (let s := presented (lines 0x00#8 0x30#8) 0x401#12 0x30#8
     s.portIn.rst = false ∧ s.busy = false ∧ s.portIn.cmdValid = true ∧
       decode (.cmd s.portIn.cmd) = .ok (.read true)) ∧
    (let s := withPin (running (lines 0x00#8 0x30#8) 0x3#4 52#6) 0x30#8
     s.portIn.rst = false ∧ s.busy = true ∧ (prog s.op s.last)[s.upc.toNat]? = some 0x9#4 ∧
       decode (.uop 0x9#4) = .ok .ackGet) := by decide

/-- ResetReleasesBothLines: START after its SDA_HOLD, no target pulling (V-X3). -/
theorem test_witness_reset_in_start :
    let s := (running (lines 0x10#8 0x20#8) 0x1#4 5#6).withPortIn ⟨true, false, 0x000#12, 0x20#8⟩
    s.portIn.rst = true ∧ view State.busy (step s) = some false ∧ getBit 0x00#8 s.sdaBit = false ∧
      getBit 0x00#8 s.sclBit = false ∧ s.lineState .sda = .held ∧ s.lineState .scl = .released := by decide

/-- OutputsAndReady, second part, and BusyBlockIgnoresTheCommandPort, third part: an idle step, with a command and
without; StatusIsWrittenAtCompletionOnly and BindingIsKeptOnceSet: a step that completes, not the first ones. -/
theorem test_witness_next_states :
    view State.busy (step (presented (lines 0x00#8 0x30#8) 0x100#12 0x30#8)) = some true ∧
    view State.busy (step (withPin (lines 0x00#8 0x30#8) 0x30#8)) = some false ∧
    view (fun t => (t.busy, t.phase, t.rspOk)) (step (withPin (running (lines 0x30#8 0x00#8) 0x1#4 7#6) 0x00#8)) =
      some (false, Phase.startSent, true) ∧
    (lines 0x30#8 0x00#8).bound = true ∧ (lines 0x30#8 0x00#8).phase ≠ .startSent := by decide

/-- PinIsReadOnlyWhereStated at SCL_WAIT, SDA_GET and ACK_GET: two inputs that differ in the seven other bits. -/
theorem test_witness_pin :
    (let s := running (lines 0x00#8 0x30#8) 0x1#4 2#6
     s.busy = true ∧ fetchUop s = some 0x4#4 ∧ getBit 0x20#8 s.sclBit = getBit 0xFF#8 s.sclBit) ∧
    (let s := running (lines 0x00#8 0x30#8) 0x4#4 5#6
     s.busy = true ∧ fetchUop s = some 0x8#4 ∧ getBit 0xEF#8 s.sdaBit = getBit 0x00#8 s.sdaBit) ∧
    (let s := running (lines 0x00#8 0x30#8) 0x3#4 52#6
     s.busy = true ∧ fetchUop s = some 0x9#4 ∧ getBit 0x10#8 s.sdaBit = getBit 0xFF#8 s.sdaBit) := by decide

/-- BusyBlockIgnoresTheCommandPort: a reset with two commands, and a busy block with two commands. -/
theorem test_witness_busy :
    (let p : PortIn := ⟨true, true, 0x100#12, 0x00#8⟩; let q : PortIn := ⟨true, false, 0x000#12, 0xFF#8⟩
     p.rst = true ∧ q.rst = true ∧ p ≠ q) ∧
    (let p : PortIn := ⟨false, true, 0x100#12, 0x30#8⟩; let q : PortIn := ⟨false, false, 0x000#12, 0x30#8⟩
     (running (lines 0x00#8 0x30#8) 0x1#4 2#6).busy = true ∧ p.rst = q.rst ∧ p.pin = q.pin ∧ p ≠ q) := by decide

/-- SdaHoldHoldsTheDataLine, SdaReleaseReleasesTheDataLine, SclHoldHoldsTheClockLine: a line already there; the two
edges. -/
theorem test_witness_lines :
    (lines 0x30#8 0x00#8).lineState .sda = .held ∧ (lines 0x30#8 0x00#8).lineState .scl = .held ∧
    (lines 0x00#8 0x30#8).lineState .sda = .released ∧
    (let s := lines 0x00#8 0x30#8
     s.sdaBit ≠ s.sclBit ∧ s.level 0x00#8 .scl = true ∧ s.level 0x00#8 .sda = true) ∧
    (let s := lines 0x10#8 0x20#8
     s.sdaBit ≠ s.sclBit ∧ s.level 0x00#8 .scl = true ∧ s.lineState .sda = .held ∧
       getBit 0x00#8 s.sdaBit = false) := by decide

/-- SclReleaseReleasesTheClockLine (the uop after it), SclWaitWaitsForAHighClock, AckGetSamplesTheAcknowledgment,
CompletionWritesTheResponse: both answers of each. -/
theorem test_witness_samples :
    (prog 0x1#4 false)[1]? = some 0x3#4 ∧
    (let s := withPin (lines 0x00#8 0x30#8) 0x20#8
     getBit s.portIn.pin s.sclBit = true ∧ getBit s.portIn.pin s.sdaBit = false) ∧
    (let s := withPin (lines 0x00#8 0x30#8) 0x10#8
     getBit s.portIn.pin s.sclBit = false ∧ getBit s.portIn.pin s.sdaBit = true) := by decide

/-- SclWaitWaitsForAHighClock, second part, for two low polls and then a reset. -/
theorem test_witness_hang :
    let s := { running (lines 0x00#8 0x30#8) 0x1#4 2#6 with
      inputs := [⟨false, false, 0#12, 0x10#8⟩, ⟨false, true, 0x200#12, 0x00#8⟩, ⟨true, false, 0#12, 0x00#8⟩] }
    s.busy = true ∧ fetchUop s = some 0x4#4 ∧ NoReset s 2 ∧ (∀ k < 2, s.pinAt .scl k = false) ∧
      (s.portInAt 2).rst = true := by decide

/-- DelayCounterRule: every count of a delay in progress, and a delay at its first step. -/
theorem test_witness_delay :
    (let s := { lines 0x00#8 0x30#8 with dly := 1, dlyRun := true }; ∀ n, (if s.dlyRun = false then n else s.dly) = 1) ∧
    (let s := { lines 0x00#8 0x30#8 with dly := 2, dlyRun := true }; ∀ n, (if s.dlyRun = false then n else s.dly) = 2) ∧
    (lines 0x00#8 0x30#8).dly = 0 ∧ (lines 0x00#8 0x30#8).dlyRun = false ∧ 0 < Config.delayFullCycles ∧
    0 < Config.delayHalfCycles := by
  refine ⟨fun _ => rfl, fun _ => rfl, rfl, rfl, Nat.succ_pos _, Nat.succ_pos _⟩

/-- SdaGetAssemblesMsbFirst: eight levels. -/
theorem test_witness_samples_list :
    ([0x10#8, 0x00#8, 0x10#8, 0x10#8, 0x00#8, 0x00#8, 0x10#8, 0x00#8] : List Byte).length = 8 ∧
    view State.sh (sampleBits [0x10#8, 0x00#8, 0x10#8, 0x10#8, 0x00#8, 0x00#8, 0x10#8, 0x00#8] (lines 0x00#8 0x30#8)) =
      some 0xB2#8 := by decide

/-- BindLatchSetsTheBindingOnce, RegistersHaveTheirWritersOnly: a set and an unset binding, one instruction run. -/
theorem test_witness_latch :
    { State.reset with sh := 0x54#8 }.bound = false ∧ (lines 0x00#8 0x30#8).bound = true ∧
    view State.bound (exec .bindLatch { State.reset with sh := 0x54#8 }) = some true := by decide

/-- OpenDrainKeptByEveryStep: a state with a held line, and its next one. -/
theorem test_witness_open_drain :
    NeverDrivenHigh (lines 0x10#8 0x20#8) ∧
    view State.ddr (step (withPin (running (lines 0x10#8 0x20#8) 0x1#4 6#6) 0x20#8)) = some 0x30#8 := by decide

/-- The invariant of a bound idle block with both lines released. -/
theorem inv_idle (inputs : List PortIn) : Inv { lines 0x00#8 0x30#8 with inputs := inputs } := by
  refine ⟨(by decide : 0x00#8 &&& 0x30#8 = 0#8), fun _ => ?_, nofun, nofun, nofun, fun b hb => ?_, fun _ => rfl,
    nofun, nofun, nofun, nofun⟩
  · exact (by decide : (4#3 : BitPos) ≠ 5#3)
  obtain ⟨h1, h2⟩ := hb rfl
  have key : ∀ b : BitPos, b ≠ 4#3 → b ≠ 5#3 → getBit 0x00#8 b = false ∧ getBit 0x30#8 b = false := by decide
  exact key b h1 h2

/-- InvariantKeptByEveryStep, InvariantStatesNeverGetStuck: an idle state that meets the invariant, and a step. -/
theorem test_witness_invariant :
    Inv (withPin (lines 0x00#8 0x30#8) 0x30#8) ∧ Inv (presented (lines 0x00#8 0x30#8) 0x100#12 0x30#8) ∧
    (withPin (lines 0x00#8 0x30#8) 0x30#8).portIn.cmdValid = false ∧
    view State.busy (step (presented (lines 0x00#8 0x30#8) 0x100#12 0x30#8)) = some true :=
  ⟨inv_idle _, inv_idle _, by decide, by decide⟩

/-! ### Witnesses for runs, whatever the length of the delays -/

/-- A bound idle state whose next edges are `pre` and then `n` edges with nothing but `pin` on the pads. -/
def world (s : State) (pre : List PortIn) (n : Nat) (pin : Byte) : State :=
  { s with inputs := pre ++ List.replicate n ⟨false, false, 0#12, pin⟩ }

theorem world_portInAt (s : State) (pre : List PortIn) (n : Nat) (pin : Byte) (k : Nat) (hk : k < pre.length + n) :
    (world s pre n pin).portInAt k = (pre[k]?).getD ⟨false, false, 0#12, pin⟩ := by
  unfold State.portInAt world
  by_cases h : k < pre.length
  · simp only [List.getElem?_append_left h, List.getElem?_eq_getElem h]
    rfl
  · have h' : k - pre.length < n := by omega
    simp [List.getElem?_append_right (Nat.le_of_not_lt h), h', h]

theorem world_noReset (s : State) (pre : List PortIn) (n : Nat) (pin : Byte) (h : ∀ p ∈ pre, p.rst = false) :
    NoReset (world s pre n pin) (pre.length + n) := by
  intro k hk
  rw [world_portInAt s pre n pin k hk]
  cases e : pre[k]? with
  | none => rfl
  | some p => exact h p (List.mem_of_getElem? e)

theorem world_pinAt (s : State) (pre : List PortIn) (n : Nat) (pin : Byte) (L : Line) (k : Nat)
    (hk : k < pre.length + n) :
    (world s pre n pin).pinAt L k = getBit ((pre[k]?).getD ⟨false, false, 0#12, pin⟩).pin (s.bit L) := by
  unfold State.pinAt
  rw [world_portInAt s pre n pin k hk]
  cases L <;> rfl

/-- The edge at which a command word is presented, both lines read high. -/
def command (w : CmdWord) : PortIn := ⟨false, true, w, 0x30#8⟩

/-- BindRunsToItsEnd: from reset and with a binding already made. -/
theorem test_witness_bind_run :
    (let s := world State.reset [command 0x854#12] 2 0x30#8
     Presented (0x800#12 ||| ((5#3 : BitPos).setWidth 12 <<< 4) ||| (4#3 : BitPos).setWidth 12) s ∧ NoReset s 3) ∧
    (let s := world (lines 0x00#8 0x30#8) [command 0x810#12] 2 0x30#8
     Presented (0x800#12 ||| ((1#3 : BitPos).setWidth 12 <<< 4) ||| (0#3 : BitPos).setWidth 12) s ∧ NoReset s 3) := by
  decide

/-- StartRunsToItsEnd: the wait not stretched. -/
theorem test_witness_start_run :
    let F := Config.delayFullCycles
    let s := world (lines 0x00#8 0x00#8) [command 0x100#12] (6 + 2 * F) 0x30#8
    Bound s ∧ Presented 0x100#12 s ∧ NoReset s (7 + 0 + 2 * F) ∧ WaitAnswered s 3 0 := by
  intro F s
  refine ⟨⟨rfl, by decide⟩, ⟨rfl, rfl, rfl, rfl⟩, fun k hk => ?_, fun j hj => by omega, ?_⟩
  · exact world_noReset _ _ _ _ (by decide) k (by simp; omega)
  · rw [world_pinAt _ _ _ _ _ _ (by simp; omega)]
    decide

/-- StartRunsToItsEnd: the wait answered 0, 0, 1 (V-S6). -/
theorem test_witness_start_run_stretched :
    let F := Config.delayFullCycles
    let q : PortIn := ⟨false, false, 0#12, 0x10#8⟩
    let s := world (lines 0x00#8 0x30#8) [command 0x100#12, q, q, q, q] (6 + 2 * F) 0x30#8
    Bound s ∧ Presented 0x100#12 s ∧ NoReset s (7 + 2 + 2 * F) ∧ WaitAnswered s 3 2 := by
  intro F q s
  have hlen : [command 0x100#12, q, q, q, q].length = 5 := rfl
  refine ⟨⟨rfl, by decide⟩, ⟨rfl, rfl, rfl, rfl⟩, fun k hk => ?_, fun j hj => ?_, ?_⟩
  · exact world_noReset _ _ _ _ (by decide) k (by rw [hlen]; omega)
  · rw [world_pinAt _ _ _ _ _ _ (by rw [hlen]; omega)]
    revert j
    decide
  · rw [world_pinAt _ _ _ _ _ _ (by rw [hlen]; omega)]
    decide

/-- StopRunsToItsEnd. -/
theorem test_witness_stop_run :
    let F := Config.delayFullCycles
    let s := world (lines 0x30#8 0x00#8) [command 0x200#12] (5 + F) 0x30#8
    Bound s ∧ Presented 0x200#12 s ∧ NoReset s (6 + 0 + F) ∧ WaitAnswered s 3 0 := by
  intro F s
  refine ⟨⟨rfl, by decide⟩, ⟨rfl, rfl, rfl, rfl⟩, fun k hk => ?_, fun j hj => by omega, ?_⟩
  · exact world_noReset _ _ _ _ (by decide) k (by simp; omega)
  · rw [world_pinAt _ _ _ _ _ _ (by simp; omega)]
    decide

/-- StopRunsToItsEnd: the wait answered 0, 1 (P5, its STOP). -/
theorem test_witness_stop_run_stretched :
    let F := Config.delayFullCycles
    let q : PortIn := ⟨false, false, 0#12, 0x00#8⟩
    let s := world (lines 0x30#8 0x00#8) [command 0x200#12, q, q, q] (5 + F) 0x20#8
    Bound s ∧ Presented 0x200#12 s ∧ NoReset s (6 + 1 + F) ∧ WaitAnswered s 3 1 := by
  intro F q s
  have hlen : [command 0x200#12, q, q, q].length = 4 := rfl
  refine ⟨⟨rfl, by decide⟩, ⟨rfl, rfl, rfl, rfl⟩, fun k hk => ?_, fun j hj => ?_, ?_⟩
  · exact world_noReset _ _ _ _ (by decide) k (by rw [hlen]; omega)
  · rw [world_pinAt _ _ _ _ _ _ (by rw [hlen]; omega)]
    revert j
    decide
  · rw [world_pinAt _ _ _ _ _ _ (by rw [hlen]; omega)]
    decide

/-- Past its prefix a world shows what its pads carry. -/
theorem world_pin_late (s : State) (pre : List PortIn) (n : Nat) (pin : Byte) (L : Line) (k : Nat)
    (hl : pre.length ≤ k) (hk : k < pre.length + n) : (world s pre n pin).pinAt L k = getBit pin (s.bit L) := by
  rw [world_pinAt s pre n pin L k hk, List.getElem?_eq_none hl]
  rfl

/-- In a world without a prefix but the command, a line reads what its pad carries. -/
theorem world_pin_of_command (s : State) (w : CmdWord) (n : Nat) (pin : Byte) (L : Line) (k : Nat) (h0 : 0 < k)
    (hk : k < 1 + n) : (world s [command w] n pin).pinAt L k = getBit pin (s.bit L) :=
  world_pin_late s [command w] n pin L k h0 hk

/-- No wait stretched. -/
theorem waited_none (i : Nat) : waited (fun _ => 0) i = 0 := by
  induction i with
  | zero => rfl
  | succ i ih => simp [waited, ih]

/-- WriteNotAcknowledgedRunsToItsEnd: no wait stretched, no target on the bus. -/
theorem test_witness_write_not_acknowledged :
    let F := Config.delayFullCycles
    let d : Nat → Nat := fun _ => 0
    let s := world (lines 0x30#8 0x00#8) [command 0x300#12] (39 + 17 * F) 0x30#8
    Bound s ∧ Presented (0x300#12 ||| (0x00#8 : Byte).setWidth 12) s ∧ NoReset s (37 + 17 * F + waited d 9) ∧
      (∀ i < 9, WaitAnswered s (3 + i * (4 + 2 * F) + waited d i) (d i)) ∧
      s.pinAt .sda (36 + 17 * F + waited d 9) = true := by
  intro F d s
  have h9 : waited d 9 = 0 := rfl
  refine ⟨⟨rfl, by decide⟩, ⟨rfl, rfl, rfl, rfl⟩, fun k hk => ?_, fun i hi => ⟨fun j hj => absurd hj (Nat.not_lt_zero j), ?_⟩, ?_⟩
  · exact world_noReset _ _ _ _ (by decide) k (by simp; omega)
  · have : i * (4 + 2 * F) ≤ 8 * (4 + 2 * F) := Nat.mul_le_mul_right _ (by omega)
    have hd : waited d i = 0 := waited_none i
    have hi0 : d i = 0 := rfl
    rw [hd, hi0, world_pin_of_command _ _ _ _ _ _ (by omega) (by omega)]
    decide
  · rw [world_pin_of_command _ _ _ _ _ _ (by omega) (by omega)]
    decide

/-- The first wait polled low once, the others not stretched. -/
def stretchFirst (i : Nat) : Nat := if i = 0 then 1 else 0

theorem waited_stretchFirst (i : Nat) : waited stretchFirst (i + 1) = 1 := by
  induction i with
  | zero => rfl
  | succ i ih => rw [waited, ih]; simp [stretchFirst]

/-- WriteAcknowledgedRunsToItsEnd: the first wait stretched by one poll (edge 3), a target that holds the data line
low. -/
theorem test_witness_write_acknowledged :
    let F := Config.delayFullCycles
    let q : PortIn := ⟨false, false, 0#12, 0x00#8⟩
    let s := world (lines 0x30#8 0x00#8) [command 0x3A5#12, q, q, q] (37 + 17 * F) 0x20#8
    Bound s ∧ Presented (0x300#12 ||| (0xA5#8 : Byte).setWidth 12) s ∧ NoReset s (40 + 17 * F + waited stretchFirst 9) ∧
      (∀ i < 9, WaitAnswered s (3 + i * (4 + 2 * F) + waited stretchFirst i) (stretchFirst i)) ∧
      s.pinAt .sda (36 + 17 * F + waited stretchFirst 9) = false := by
  intro F q s
  have h9 : waited stretchFirst 9 = 1 := rfl
  have hlen : [command 0x3A5#12, q, q, q].length = 4 := rfl
  have late : ∀ (L : Line) k, 4 ≤ k → k < 4 + (37 + 17 * F) → s.pinAt L k = getBit 0x20#8 (s.bit L) :=
    fun L k h4 hk => world_pin_late _ _ _ _ L k (by rw [hlen]; exact h4) (by rw [hlen]; exact hk)
  refine ⟨⟨rfl, by decide⟩, ⟨rfl, rfl, rfl, rfl⟩, fun k hk => ?_, fun i hi => ?_, ?_⟩
  · exact world_noReset _ _ _ _ (by decide) k (by rw [hlen]; omega)
  · cases i with
    | zero =>
      refine ⟨fun j hj => ?_, ?_⟩
      · obtain rfl : j = 0 := by have : stretchFirst 0 = 1 := rfl; omega
        exact (world_pinAt _ _ _ _ _ _ (by
          rw [hlen, show 3 + 0 * (4 + 2 * F) + waited stretchFirst 0 + 0 = 3 by simp [waited]]
          omega)).trans (by
          rw [show 3 + 0 * (4 + 2 * F) + waited stretchFirst 0 + 0 = 3 by simp [waited]]
          change getBit 0x00#8 5#3 = false
          decide)
      · rw [show 3 + 0 * (4 + 2 * F) + waited stretchFirst 0 + stretchFirst 0 = 4 by simp [waited, stretchFirst],
          late _ _ (by omega) (by omega)]
        decide
    | succ i =>
      have h0 : stretchFirst (i + 1) = 0 := rfl
      have hm : (i + 1) * (4 + 2 * F) ≤ 8 * (4 + 2 * F) := Nat.mul_le_mul_right _ (by omega)
      have hl : 1 * (4 + 2 * F) ≤ (i + 1) * (4 + 2 * F) := Nat.mul_le_mul_right _ (by omega)
      rw [h0, waited_stretchFirst]
      refine ⟨fun j hj => by omega, ?_⟩
      rw [late _ _ (by omega) (by omega)]
      decide
  · rw [h9, late _ _ (by omega) (by omega)]
    decide

/-- WriteShowsTheByteMsbFirst: the same run, whose first pulse has one low poll and the others none. -/
theorem test_witness_write_shows :
    let F := Config.delayFullCycles
    let q : PortIn := ⟨false, false, 0#12, 0x00#8⟩
    let s := world (lines 0x30#8 0x00#8) [command 0x3A5#12, q, q, q] (37 + 17 * F) 0x20#8
    Bound s ∧ Presented (0x300#12 ||| (0xA5#8 : Byte).setWidth 12) s ∧ NoReset s (33 + 16 * F + waited stretchFirst 8) ∧
      (∀ i < 8, WaitAnswered s (3 + i * (4 + 2 * F) + waited stretchFirst i) (stretchFirst i)) := by
  intro F q s
  have h8 : waited stretchFirst 8 = 1 := rfl
  have h9 : waited stretchFirst 9 = 1 := rfl
  obtain ⟨hb, hp, hr, hw, _⟩ := test_witness_write_acknowledged
  exact ⟨hb, hp, fun k hk => hr k (by omega), fun i hi => hw i (by omega)⟩

/-- ReadReturnsTheSampledByte, and ReadAnswersAckOrNack, which asks for fewer edges without reset: both values of
`last`, no wait stretched. -/
theorem test_witness_read (last : Bool) :
    let F := Config.delayFullCycles
    let H := Config.delayHalfCycles
    let d : Nat → Nat := fun _ => 0
    let s := world (lines 0x30#8 0x00#8) [command (if last then 0x401#12 else 0x400#12)] (39 + 3 * F + 16 * H) 0x30#8
    Bound s ∧ Presented (if last then 0x401#12 else 0x400#12) s ∧ NoReset s (40 + 3 * F + 16 * H + waited d 9) ∧
      (∀ i < 8, WaitAnswered s (3 + F + i * (4 + 2 * H) + waited d i) (d i)) ∧
      WaitAnswered s (36 + F + 16 * H + waited d 8) (d 8) := by
  intro F H d s
  have h8 : waited d 8 = 0 := rfl
  have h9 : waited d 9 = 0 := rfl
  refine ⟨⟨rfl, (by decide : (4#3 : BitPos) ≠ 5#3)⟩, ⟨rfl, rfl, rfl, rfl⟩, fun k hk => ?_,
    fun i hi => ⟨fun j hj => absurd hj (Nat.not_lt_zero j), ?_⟩, fun j hj => absurd hj (Nat.not_lt_zero j), ?_⟩
  · exact world_noReset _ _ _ _ (by cases last <;> decide) k (by simp; omega)
  · have : i * (4 + 2 * H) ≤ 7 * (4 + 2 * H) := Nat.mul_le_mul_right _ (by omega)
    have hd : waited d i = 0 := waited_none i
    have hi0 : d i = 0 := rfl
    rw [hd, hi0, world_pin_of_command _ _ _ _ _ _ (by omega) (by omega)]
    decide
  · have h80 : d 8 = 0 := rfl
    rw [h8, h80, world_pin_of_command _ _ _ _ _ _ (by omega) (by omega)]
    decide

/-- ReadReturnsTheSampledByte, ReadAnswersAckOrNack: both values of `last`, the first wait stretched by one poll, at edge
3 + F. -/
theorem test_witness_read_stretched (last : Bool) :
    let F := Config.delayFullCycles
    let H := Config.delayHalfCycles
    let w : CmdWord := if last then 0x401#12 else 0x400#12
    let s := world (lines 0x30#8 0x00#8) (command w :: List.replicate (3 + F) ⟨false, false, 0#12, 0x00#8⟩)
      (37 + 2 * F + 16 * H) 0x30#8
    Bound s ∧ Presented w s ∧ NoReset s (40 + 3 * F + 16 * H + waited stretchFirst 9) ∧
      NoReset s ((if last then 39 else 40) + 3 * F + 16 * H + waited stretchFirst 9) ∧
      NoReset s (38 + 3 * F + 16 * H + waited stretchFirst 9) ∧
      (∀ i < 8, WaitAnswered s (3 + F + i * (4 + 2 * H) + waited stretchFirst i) (stretchFirst i)) ∧
      WaitAnswered s (36 + F + 16 * H + waited stretchFirst 8) (stretchFirst 8) := by
  intro F H w s
  have h8 : waited stretchFirst 8 = 1 := rfl
  have h9 : waited stretchFirst 9 = 1 := rfl
  have hlen : (command w :: List.replicate (3 + F) (⟨false, false, 0#12, 0x00#8⟩ : PortIn)).length = 4 + F := by
    simp; omega
  have late : ∀ k, 4 + F ≤ k → k < 4 + F + (37 + 2 * F + 16 * H) → s.pinAt .scl k = getBit 0x30#8 5#3 :=
    fun k h4 hk => world_pin_late _ _ _ _ .scl k (by rw [hlen]; exact h4) (by rw [hlen]; exact hk)
  have noReset : NoReset s (40 + 3 * F + 16 * H + waited stretchFirst 9) := by
    intro k hk
    refine world_noReset _ _ _ _ (fun p hp => ?_) k (by rw [hlen]; omega)
    rcases List.mem_cons.mp hp with rfl | hp
    · rfl
    · rw [List.eq_of_mem_replicate hp]
  refine ⟨⟨rfl, (by decide : (4#3 : BitPos) ≠ 5#3)⟩, ⟨rfl, rfl, rfl, rfl⟩, noReset,
    fun k hk => noReset k (by cases last <;> simp at hk <;> omega), fun k hk => noReset k (by omega),
    fun i hi => ?_, fun j hj => by simp [stretchFirst] at hj,
    ?_⟩
  · cases i with
    | zero =>
      refine ⟨fun j hj => ?_, ?_⟩
      · obtain rfl : j = 0 := by have : stretchFirst 0 = 1 := rfl; omega
        rw [show 3 + F + 0 * (4 + 2 * H) + waited stretchFirst 0 + 0 = 2 + F + 1 by simp [waited]; omega,
          world_pinAt _ _ _ _ _ _ (by rw [hlen]; omega), List.getElem?_cons_succ,
          List.getElem?_replicate_of_lt (by omega)]
        change getBit 0x00#8 5#3 = false
        decide
      · rw [show 3 + F + 0 * (4 + 2 * H) + waited stretchFirst 0 + stretchFirst 0 = 4 + F by
          simp [waited, stretchFirst]; omega, late _ (by omega) (by omega)]
        decide
    | succ i =>
      have h0 : stretchFirst (i + 1) = 0 := rfl
      have hm : (i + 1) * (4 + 2 * H) ≤ 7 * (4 + 2 * H) := Nat.mul_le_mul_right _ (by omega)
      have hl : 1 * (4 + 2 * H) ≤ (i + 1) * (4 + 2 * H) := Nat.mul_le_mul_right _ (by omega)
      rw [h0, waited_stretchFirst]
      refine ⟨fun j hj => by omega, ?_⟩
      rw [late _ (by omega) (by omega)]
      decide
  · have h80 : stretchFirst 8 = 0 := rfl
    rw [h8, h80, late _ (by omega) (by omega)]
    decide

/-- StartOnTheIdealBus, StopOnTheIdealBus: the four boundary states, and a target that holds the data line low. -/
theorem test_witness_boundaries :
    (lines 0x00#8 0x00#8).boundary = some .b0 ∧ (lines 0x00#8 0x30#8).boundary = some .br ∧
    (lines 0x30#8 0x00#8).boundary = some .bh ∧ (lines 0x20#8 0x10#8).boundary = some .bm ∧
    (lines 0x20#8 0x10#8).sdaBit ≠ (lines 0x20#8 0x10#8).sclBit ∧ getBit 0x10#8 (lines 0x20#8 0x10#8).sclBit = false ∧
    getBit 0x10#8 (lines 0x20#8 0x10#8).sdaBit = true ∧ getBit 0x00#8 (lines 0x20#8 0x10#8).sdaBit = false := by
  decide

/-- FirstUnacknowledgedWriteAborts: a WRITE and a last READ at the head of what is left. -/
theorem test_witness_host :
    (hostProg (writeTxn 0x20#7 0x00#8 [0x05#8])).todo =
      .start :: [.write 0x40#8, .write 0x00#8, .write 0x05#8, .stop] ∧
    (hostProg [.write 0x40#8, .stop]).todo = .write 0x40#8 :: [.stop] ∧
    (hostProg [.read true]).todo = .read true :: [] := by decide

/-- TransactionCommands: a data byte and where it stands; the first and the last READ of two (P6). -/
theorem test_witness_transaction_commands :
    [0x05#8, 0x06#8][1]? = some 0x06#8 ∧ (writeTxn 0x20#7 0x00#8 [0x05#8, 0x06#8])[4]? = some (.write 0x06#8) ∧
    (readTxn 0x20#7 0x10#8 2)[6]? = some (.read false) ∧ (readTxn 0x20#7 0x10#8 2)[7]? = some (.read true) ∧
    Instr.stop ∈ readTxn 0x20#7 0x10#8 2 := by decide

/-- TransactionsAreNeverRefused: a bound idle block and a host about to write. -/
theorem test_witness_transaction :
    Inv (lines 0x00#8 0x30#8) ∧ (lines 0x00#8 0x30#8).bound = true ∧
    ∀ c ∈ (hostProg (writeTxn 0x20#7 0x00#8 [0x05#8])).todo, c.isCommand = true ∧ c.WellFormed :=
  ⟨inv_idle [], rfl, by decide⟩

end Sys2Proof.Tests
end

section
/-! PROOFS. spec/10_state.md: accepting a command (R29), the output ports (R26), what a step reads of PIN (R15). -/

namespace Sys2Proof.Machine

/-! ### Legal command words (R62, R64) -/

theorem wellFormed_bind_iff (sda scl : BitPos) : (Instr.bind sda scl).WellFormed ↔ sda ≠ scl := by
  simp [Instr.WellFormed, Instr.wf]

/-- The decoder reads a command off its word. -/
theorem decodeCmd_commandWord (i : Instr) (hc : i.isCommand = true) (hw : i.WellFormed) :
    decodeCmd (commandWord i) = .ok i := by
  cases i with
  | start => rfl
  | stop => rfl
  | write data => simp [commandWord, encode, decodeCmd, Opc.start, Opc.stop, Opc.write]
  | read last => cases last <;> rfl
  | bind sda scl => revert sda scl; decide
  | _ => cases hc

/-- A word the decoder reads is that of a well-formed command. -/
theorem command_of_decodeCmd (w : CmdWord) (i : Instr) (h : decodeCmd w = .ok i) :
    i.isCommand = true ∧ i.WellFormed ∧ commandWord i = w := by
  have word (o : Opcode) (a : Byte) (ho : opcOf w = o) (ha : argOf w = a) : cmdWord o a = w := by
    rw [← ho, ← ha, cmdWord_eta]
  unfold decodeCmd at h
  split at h
  next ho =>
    split at h <;> cases h
    next ha => exact ⟨rfl, rfl, word _ _ ho ha⟩
  split at h
  next ho =>
    split at h <;> cases h
    next ha => exact ⟨rfl, rfl, word _ _ ho ha⟩
  split at h
  next ho =>
    cases h
    exact ⟨rfl, rfl, word _ _ ho rfl⟩
  split at h
  next ho =>
    split at h <;> cases h
    next ha => exact ⟨rfl, rfl, word _ _ ho (readArg_eta _ ha).symm⟩
  split at h
  next ho =>
    split at h
    · cases h
    next hz =>
      obtain ⟨h3, h7⟩ : (argOf w).getLsbD 3 = false ∧ (argOf w).getLsbD 7 = false := by simpa using hz
      split at h <;> cases h
      next hne => exact ⟨rfl, (wellFormed_bind_iff _ _).mpr hne, word _ _ ho (bindArg_eta _ h3 h7).symm⟩
  · cases h

theorem legalWord_commandWord (i : Instr) (hc : i.isCommand = true) (hw : i.WellFormed) :
    LegalWord (commandWord i) := by
  cases i with
  | start => decide
  | stop => decide
  | write data => revert data; decide
  | read last => revert last; decide
  | bind sda scl => revert sda scl; decide
  | _ => cases hc

theorem sdaField_argOf (w : CmdWord) : sdaField (argOf w) = w.extractLsb' 0 3 := by
  apply BitVec.eq_of_getLsbD_eq
  intro i hi
  simp [sdaField, argOf, hi]

theorem sclField_argOf (w : CmdWord) : sclField (argOf w) = w.extractLsb' 4 3 := by
  apply BitVec.eq_of_getLsbD_eq
  intro i hi
  simp [sclField, argOf, hi]

/-- Every legal word spells a command. -/
theorem command_of_legalWord (w : CmdWord) (h : LegalWord w) :
    ∃ i : Instr, i.isCommand = true ∧ i.WellFormed ∧ commandWord i = w := by
  obtain rfl | rfl | ⟨hlo, hhi⟩ | rfl | rfl | ⟨ho, h3, h7, hne⟩ := h
  · exact ⟨.start, rfl, rfl, rfl⟩
  · exact ⟨.stop, rfl, rfl, rfl⟩
  · have ho : opcOf w = Opc.write := by
      apply BitVec.eq_of_toNat_eq
      simp only [opcOf, Opc.write, BitVec.extractLsb'_toNat, Nat.shiftRight_eq_div_pow, BitVec.toNat_ofNat]
      omega
    exact ⟨.write (argOf w), rfl, rfl, by rw [← cmdWord_eta w, ho]; simp [commandWord, encode]⟩
  · exact ⟨.read false, rfl, rfl, rfl⟩
  · exact ⟨.read true, rfl, rfl, rfl⟩
  · have z3 : (argOf w).getLsbD 3 = false := by simpa [argOf] using h3
    have z7 : (argOf w).getLsbD 7 = false := by simpa [argOf] using h7
    have ho : opcOf w = Opc.bind := ho
    refine ⟨.bind (sdaField (argOf w)) (sclField (argOf w)), rfl, ?_, ?_⟩
    · rwa [wellFormed_bind_iff, sdaField_argOf, sclField_argOf]
    · change cmdWord Opc.bind (bindArg _ _) = w
      rw [bindArg_eta _ z3 z7, ← ho, cmdWord_eta]

/-- The decoder reads the legal words and no others (R64). -/
theorem exists_decodeCmd_eq_ok_iff (w : CmdWord) : (∃ i, decodeCmd w = .ok i) ↔ LegalWord w := by
  constructor
  · rintro ⟨i, hi⟩
    obtain ⟨hc, hw, rfl⟩ := command_of_decodeCmd w i hi
    exact legalWord_commandWord i hc hw
  · intro h
    obtain ⟨i, hc, hw, rfl⟩ := command_of_legalWord w h
    exact ⟨i, decodeCmd_commandWord i hc hw⟩

/-! ### Accepting a command (R29) -/

/-- Executing a command accepts its word; all but BIND need the binding for it (R29, R82). -/
theorem exec_command (w : CmdWord) (i : Instr) (s : State) (h : decodeCmd w = .ok i) :
    exec i s = if opcOf w = Opc.bind then .next (s.accept w) else acceptBound w s := by
  obtain ⟨hc, hw, rfl⟩ := command_of_decodeCmd w i h
  cases i with
  | start => rfl
  | stop => rfl
  | write data => rw [if_neg (by simp [commandWord, encode, Opc.write, Opc.bind])]; rfl
  | read last => rw [if_neg (by simp [commandWord, encode, Opc.read, Opc.bind])]; rfl
  | bind sda scl =>
    have hne : sda ≠ scl := (wellFormed_bind_iff sda scl).mp hw
    simp [commandWord, encode, exec, execBind, hne]
  | _ => cases hc

/-- A command that answers a next state answers the accepting one. -/
theorem eq_accept_of_exec_command (w : CmdWord) (i : Instr) (s u : State) (h : decodeCmd w = .ok i)
    (he : exec i s = .next u) : u = s.accept w := by
  rw [exec_command w i s h] at he
  split at he
  · cases he; rfl
  · exact ((acceptBound_eq_next w s u).mp he).2

/-- An idle block refuses a reserved word (R64). -/
theorem step_reservedWord (s : State) (hr : s.portIn.rst = false) (hb : s.busy = false)
    (hv : s.portIn.cmdValid = true) (hl : ¬ LegalWord s.portIn.cmd) :
    ∃ why, step s = .refused (.reservedWord why) := by
  cases hd : decodeCmd s.portIn.cmd with
  | ok i => exact absurd ((exists_decodeCmd_eq_ok_iff _).mp ⟨i, hd⟩) hl
  | error why => exact ⟨why, by simp [step, hr, hb, hv, stepCommand, hd]⟩

/-- An idle block's answer to a legal word (R29, R82). -/
theorem step_legalWord (s : State) (hr : s.portIn.rst = false) (hb : s.busy = false)
    (hv : s.portIn.cmdValid = true) (hl : LegalWord s.portIn.cmd) :
    step s = if s.bound = true ∨ opcOf s.portIn.cmd = Opc.bind then .next (s.accept s.portIn.cmd).edge
      else .refused .commandBeforeBind := by
  obtain ⟨i, hd⟩ := (exists_decodeCmd_eq_ok_iff _).mpr hl
  rw [step_command s i hr hb hv hd, exec_command _ i s hd]
  by_cases ho : opcOf s.portIn.cmd = Opc.bind
  · simp [ho, afterEdge]
  · cases hbd : s.bound <;> simp [ho, hbd, acceptBound, afterEdge]

/-- Settles O11: a reserved word and a command before BIND are refused, any other command is accepted. -/
theorem acceptingACommand : Obligations.AcceptingACommand := by
  intro s hr hb hv
  refine ⟨fun hl => ?_, fun hbd ho => ?_, fun hl hok => ?_⟩
  · obtain ⟨why, h⟩ := step_reservedWord s hr hb hv hl
    exact ⟨_, h⟩
  · by_cases hl : LegalWord s.portIn.cmd
    · refine ⟨_, (step_legalWord s hr hb hv hl).trans (if_neg ?_)⟩
      rintro (h | h)
      · exact absurd (hbd.symm.trans h) (by decide)
      · exact ho h
    · obtain ⟨why, h⟩ := step_reservedWord s hr hb hv hl
      exact ⟨_, h⟩
  · exact ⟨_, (step_legalWord s hr hb hv hl).trans (if_pos hok), rfl⟩

/-! ### The output ports (R26) -/

theorem phaseCode_injective : Function.Injective phaseCode := by
  intro a b h
  revert h
  cases a <;> cases b <;> decide

/-- Settles O14: `busy` rises at an idle step exactly if that step accepts a command. -/
theorem outputsAndReady : Obligations.OutputsAndReady := by
  refine ⟨fun s => ?_, fun s t h hb => ?_⟩
  · exact ⟨rfl, rfl, rfl, rfl, rfl, rfl, rfl, phaseCode_injective.eq_iff (b := .idle),
      phaseCode_injective.eq_iff (b := .startSent), phaseCode_injective.eq_iff (b := .byteTransferWrite),
      phaseCode_injective.eq_iff (b := .byteTransferRead)⟩
  · obtain ⟨hr, rfl⟩ | ⟨hr, -, hv, rfl⟩ | ⟨hr, -, hv, i, u, hd, he, rfl⟩ | ⟨-, hbusy, -⟩ :=
      step_cases s t h
    · simp [State.cmdReady, hr, State.reset]
    · simp [hb, hv]
    · obtain rfl := eq_accept_of_exec_command _ i s u hd he
      simp [State.cmdReady, hr, hb, hv]
    · exact absurd (hb.symm.trans hbusy) (by decide)

/-! ### What a step reads of PIN (R15) -/

/-- The line whose level an instruction reads, if it reads one (R15). -/
def lineRead : Instr → Option Line
  | .sclWait => some .scl
  | .sdaGet | .ackGet => some .sda
  | .start | .stop | .write _ | .read _ | .bind _ _ | .sdaHold | .sdaRelease | .sclHold | .sclRelease
  | .delayFull | .delayHalf | .sdaPut | .bindLatch | .endUop => none

theorem lineRead_of_isCommand (i : Instr) (h : i.isCommand = true) : lineRead i = none := by
  cases i with
  | sclWait | sdaGet | ackGet => cases h
  | _ => rfl

/-- The code a uop was read from is its own (R65). -/
theorem encode_of_decodeUop (c : UopCode) (i : Instr) (h : decodeUop c = .ok i) : encode i = .uop c := by
  have key : ∀ c : UopCode, (decodeUop c).toOption.all (fun i => encode i = .uop c) = true := by decide
  simpa [h, Except.toOption] using key c

/-- After the edge nothing is left of what the input ports showed at it. -/
theorem edge_withPortIn (s : State) (p : PortIn) : (s.withPortIn p).edge = s.edge := rfl

/-- Accepting takes nothing from the input ports but the word. -/
theorem afterEdge_acceptBound_withPortIn (w : CmdWord) (s : State) (p q : PortIn) :
    afterEdge (acceptBound w (s.withPortIn p)) = afterEdge (acceptBound w (s.withPortIn q)) := by
  cases h : s.bound <;> simp only [acceptBound, State.withPortIn_bound, h] <;> rfl

theorem withPortIn_delayStep (n : Nat) (s : State) (p : PortIn) :
    (s.withPortIn p).delayStep n = (s.delayStep n).withPortIn p := by
  unfold State.delayStep
  rw [show (s.withPortIn p).delayCount n = s.delayCount n from rfl]
  split <;> rfl

theorem withPortIn_latchBinding (s : State) (p : PortIn) :
    (s.withPortIn p).latchBinding = s.latchBinding.withPortIn p := by
  unfold State.latchBinding
  rw [State.withPortIn_bound]
  split <;> rfl

theorem execSdaPut_withPortIn (s : State) (p : PortIn) :
    execSdaPut (s.withPortIn p) =
      .next (({ s.setLine .sda (!msb s.sh) (msb s.sh) with sh := shiftOut s.sh }.advance).withPortIn p) :=
  (exec_uop (s.withPortIn p)).2.2.2.2.2.2.2.1

/-- An update that leaves the input ports alone answers the same whatever they show. -/
theorem afterEdge_next_withPortIn (f : State → State) (hf : ∀ s p, f (s.withPortIn p) = (f s).withPortIn p)
    (s : State) (p q : PortIn) :
    afterEdge (.next (f (s.withPortIn p))) = afterEdge (.next (f (s.withPortIn q))) := by
  simp only [afterEdge, hf, edge_withPortIn]

/-- Two input ports with the same level on the line an instruction reads give it the same meaning. -/
theorem afterEdge_exec_withPortIn (i : Instr) (s : State) (p q : PortIn)
    (h : ∀ L, lineRead i = some L → getBit p.pin (s.bit L) = getBit q.pin (s.bit L)) :
    afterEdge (exec i (s.withPortIn p)) = afterEdge (exec i (s.withPortIn q)) := by
  have pinSame (L : Line) (hL : lineRead i = some L) : (s.withPortIn p).envPin L = (s.withPortIn q).envPin L := h L hL
  cases i with
  | start => exact afterEdge_acceptBound_withPortIn _ s p q
  | stop => exact afterEdge_acceptBound_withPortIn _ s p q
  | write data => exact afterEdge_acceptBound_withPortIn _ s p q
  | read last => exact afterEdge_acceptBound_withPortIn _ s p q
  | bind sda scl => by_cases e : sda = scl <;> simp only [exec, execBind, e] <;> rfl
  | sclWait =>
    simp only [exec, execSclWait, pinSame .scl rfl]
    cases (s.withPortIn q).envPin .scl <;> rfl
  | sdaGet =>
    simp only [exec, execSdaGet, pinSame .sda rfl]
    rfl
  | ackGet =>
    simp only [exec, execAckGet, pinSame .sda rfl]
    cases (s.withPortIn q).envPin .sda <;> rfl
  | sdaHold => exact afterEdge_next_withPortIn (fun t => (t.hold .sda).advance) (fun _ _ => rfl) s p q
  | sdaRelease => exact afterEdge_next_withPortIn (fun t => (t.releaseRegs .sda).advance) (fun _ _ => rfl) s p q
  | sclHold => exact afterEdge_next_withPortIn (fun t => (t.hold .scl).advance) (fun _ _ => rfl) s p q
  | sclRelease => exact afterEdge_next_withPortIn (fun t => (t.releaseRegs .scl).advance) (fun _ _ => rfl) s p q
  | delayFull => exact afterEdge_next_withPortIn (·.delayStep _) (withPortIn_delayStep _) s p q
  | delayHalf => exact afterEdge_next_withPortIn (·.delayStep _) (withPortIn_delayStep _) s p q
  | sdaPut => simp only [exec, execSdaPut_withPortIn, afterEdge, edge_withPortIn]
  | bindLatch =>
    exact afterEdge_next_withPortIn (·.latchBinding.advance)
      (fun t r => congrArg State.advance (withPortIn_latchBinding t r)) s p q
  | endUop => exact afterEdge_next_withPortIn (·.complete true) (fun _ _ => rfl) s p q

/-- A command port that shows the same word gets the same answer (R15: a command reads no pin). -/
theorem stepCommand_withPortIn (s : State) (p q : PortIn) (hcmd : p.cmd = q.cmd) :
    stepCommand (s.withPortIn p) = stepCommand (s.withPortIn q) := by
  simp only [stepCommand, State.withPortIn_portIn, hcmd]
  cases hd : decodeCmd q.cmd with
  | error why => rfl
  | ok i =>
    have hnone := lineRead_of_isCommand i (command_of_decodeCmd _ i hd).1
    exact afterEdge_exec_withPortIn i s p q fun L hL => by simp [hnone] at hL

/-- A running uop reads its own line only (R15). -/
theorem stepUop_withPortIn (s : State) (p q : PortIn)
    (hscl : fetchUop s = some Uop.sclWait → getBit p.pin s.sclBit = getBit q.pin s.sclBit)
    (hsda : fetchUop s = some Uop.sdaGet ∨ fetchUop s = some Uop.ackGet →
      getBit p.pin s.sdaBit = getBit q.pin s.sdaBit) :
    stepUop (s.withPortIn p) = stepUop (s.withPortIn q) := by
  have hfetch (r : PortIn) : fetchUop (s.withPortIn r) = fetchUop s := rfl
  simp only [stepUop, hfetch]
  cases hf : fetchUop s with
  | none => rfl
  | some c =>
    cases hd : decodeUop c with
    | error why => simp only [hd]
    | ok i =>
      have hcode : encode i = .uop c := encode_of_decodeUop c i hd
      simp only [hd]
      refine afterEdge_exec_withPortIn i s p q fun L hL => ?_
      cases i with
      | sclWait => cases hL; cases hcode; exact hscl hf
      | sdaGet => cases hL; cases hcode; exact hsda (.inl hf)
      | ackGet => cases hL; cases hcode; exact hsda (.inr hf)
      | _ => cases hL

/-- A step with `p` on the input ports (R28). -/
theorem step_withPortIn (s : State) (p : PortIn) :
    step (s.withPortIn p) =
      if p.rst then .next s.resetRegs.edge
      else if s.busy then stepUop (s.withPortIn p)
      else if p.cmdValid then stepCommand (s.withPortIn p)
      else .next s.edge := rfl

/-- Settles O15: only SCL_WAIT, SDA_GET and ACK_GET read a level, each the level of one line. -/
theorem pinIsReadOnlyWhereStated : Obligations.PinIsReadOnlyWhereStated := by
  intro s p q hrst hvalid hcmd hscl hsda
  rw [step_withPortIn, step_withPortIn, hrst, hvalid, stepCommand_withPortIn s p q hcmd]
  by_cases hb : s.busy = true
  · rw [stepUop_withPortIn s p q (hscl hb) (hsda hb)]
  · rw [if_neg hb, if_neg hb]

end Sys2Proof.Machine
end

section
/-! PROOFS. spec/30_encoding.md: the command words (R62, R64), the uop codes (R65), the micro-programs (R66), the address
byte (R69). -/

namespace Sys2Proof.Machine

/-! ### Command words (R62, R64) -/

/-- Settles O5: the decoder reads the listed words only, and what it does not read is refused. -/
theorem reservedWordsAreRefused : Obligations.ReservedWordsAreRefused :=
  ⟨exists_decodeCmd_eq_ok_iff, step_reservedWord⟩

theorem commandWord_write (data : Byte) : commandWord (.write data) = 0x300#12 ||| data.setWidth 12 := rfl

theorem commandWord_bind (sda scl : BitPos) :
    commandWord (.bind sda scl) = 0x800#12 ||| (scl.setWidth 12 <<< 4) ||| sda.setWidth 12 := by
  revert sda scl
  decide

/-- Settles O3: each word R62 lists is its command's own. -/
theorem commandWordsDecode : Obligations.CommandWordsDecode := by
  refine ⟨rfl, rfl, fun data => ?_, rfl, rfl, fun sda scl hne => ?_⟩
  · rw [← commandWord_write]
    exact decodeCmd_commandWord (.write data) rfl rfl
  · rw [← commandWord_bind]
    exact decodeCmd_commandWord (.bind sda scl) rfl ((wellFormed_bind_iff sda scl).mpr hne)

/-! ### Uop codes (R65) -/

theorem decodeUop_unused : ∀ c : UopCode, 0xC ≤ c.toNat → decodeUop c = .error .unusedUop := by decide

/-- Settles O4: a micro-program's codes decode, so none of them is unused. -/
theorem uopCodesDecode : Obligations.UopCodesDecode := by
  refine ⟨rfl, rfl, rfl, rfl, rfl, rfl, rfl, rfl, rfl, rfl, rfl, rfl, decodeUop_unused, fun op last c hc => ?_⟩
  obtain ⟨i, hi⟩ := prog_decodes op last c hc
  by_contra hlt
  have hunused := decodeUop_unused c (Nat.le_of_not_lt hlt)
  cases hi.symm.trans hunused

/-! ### Micro-programs (R66) -/

/-- Behind the first `i` copies stand the other ones. -/
theorem drop_times_append (us rest : List UopCode) (n i : Nat) :
    (times (i + n) us ++ rest).drop (us.length * i) = times n us ++ rest := by
  induction i with
  | zero => simp
  | succ i ih =>
    have hfirst : times (i + 1 + n) us ++ rest = us ++ (times (i + n) us ++ rest) := by
      rw [Nat.succ_add, times, List.append_assoc]
    rw [hfirst, Nat.mul_succ, Nat.add_comm, ← List.drop_drop, List.drop_left, ih]

/-- Copy number `i`, cut out of the copies. -/
theorem take_drop_times_append (us rest : List UopCode) {n i : Nat} (h : i < n) :
    ((times n us ++ rest).drop (us.length * i)).take us.length = us := by
  obtain ⟨k, rfl⟩ : ∃ k, n = i + (k + 1) := ⟨n - i - 1, by omega⟩
  rw [drop_times_append, times, List.append_assoc, List.take_left]

/-- Settles O6: the bits of a WRITE and of a READ are copies of one list. -/
theorem microProgramTable : Obligations.MicroProgramTable := by
  refine ⟨fun _ => rfl, fun _ => rfl, fun last => ⟨?length, fun i hi => ?writeBit, rfl⟩,
    fun last => ⟨rfl, fun i hi => ?readBit⟩, rfl, rfl, fun _ => rfl⟩
  case length =>
    obtain ⟨-, -, hwrite, -⟩ := prog_lengths last
    exact hwrite
  case writeBit => exact take_drop_times_append (Uop.sdaPut :: toggle) _ hi
  case readBit =>
    rw [← List.drop_drop]
    exact take_drop_times_append readBit _ hi

/-! ### The address byte (R69) -/

/-- Settles O47: seven bits shifted by one fit a byte and leave bit 0 free for `rw`. -/
theorem addressByte : Obligations.AddressByte := by
  intro slave rw
  have hrw : rw.toNat < 2 ^ 1 := rw.toNat_lt
  calc (addrByte slave rw).toNat
      = slave.toNat <<< 1 ||| rw.toNat := by
        simp (disch := omega) only [addrByte, BitVec.toNat_or, BitVec.toNat_shiftLeft, BitVec.toNat_setWidth,
          BitVec.toNat_ofBool, Nat.mod_eq_of_lt]
    _ = slave.toNat <<< 1 + rw.toNat := (Nat.shiftLeft_add_eq_or_of_lt hrw _).symm
    _ = 2 * slave.toNat + rw.toNat := by omega

end Sys2Proof.Machine
end

section
/-! PROOFS. spec/40_bind.md: the binding is set once (R81), and no other command is taken before it (R82). -/

namespace Sys2Proof.Machine

/-! ### Before the binding (R82) -/

theorem acceptBound_of_unbound (w : CmdWord) (s : State) (h : s.bound = false) :
    acceptBound w s = .refused .commandBeforeBind := by
  simp [acceptBound, h]

/-- Settles O13: each of the four commands asks for the binding before its word is accepted. -/
theorem commandsBeforeBindAreRefused : Obligations.CommandsBeforeBindAreRefused := by
  intro s h
  have refused (w : CmdWord) : acceptBound w s = .refused .commandBeforeBind := acceptBound_of_unbound w s h
  exact ⟨refused _, refused _, fun data => refused (cmdWord Opc.write data),
    fun last => refused (cmdWord Opc.read (readArg last))⟩

/-! ### BIND_LATCH (R81) -/

theorem exec_bindLatch_of_unbound (s : State) (h : s.bound = false) :
    exec .bindLatch s =
      .next { s with sdaBit := sdaField s.sh, sclBit := sclField s.sh, bound := true }.advance :=
  congrArg (fun t : State => Host.Outcome.next t.advance) (s.latchBinding_of_unbound h)

theorem exec_bindLatch_of_bound (s : State) (h : s.bound = true) : exec .bindLatch s = .next s.advance :=
  congrArg (fun t : State => Host.Outcome.next t.advance) (s.latchBinding_of_bound h)

/-- Settles O27: an unset binding is latched and a set one left, and in both cases `upc` alone advances beside it. -/
theorem bindLatchSetsTheBindingOnce : Obligations.BindLatchSetsTheBindingOnce := by
  refine fun s => ⟨fun unbound => ?latched, fun bound => ?kept⟩
  case latched => exact ⟨_, exec_bindLatch_of_unbound s unbound, upcNext_of_ne s.upc, rfl⟩
  case kept => exact ⟨_, exec_bindLatch_of_bound s bound, upcNext_of_ne s.upc, rfl⟩

end Sys2Proof.Machine
end

section
/-! PROOFS. spec/41_line_control.md: the two line primitives (R85, R86), the four uops that write a line (R87 to R90),
the wait for the clock (R91). -/

namespace Sys2Proof.Machine

/-! ### Writing one line (R85, R86) -/

theorem setBit_getBit (x : Byte) (b : BitPos) : setBit x b (getBit x b) = x := by
  apply eq_of_getBit_eq
  intro c
  by_cases h : c = b <;> simp [h]

/-- The four line states are the four values of a line's two bits (R16). -/
theorem pairState_injective : Function.Injective pairState := by
  unfold Function.Injective
  decide

theorem lineState_eq_pairState (s : State) (L : Line) :
    s.lineState L = pairState (getBit s.ddr (s.bit L), getBit s.port (s.bit L)) := rfl

theorem lineWritten_setLine (s : State) (L : Line) (dir level : Bool) :
    LineWritten L dir level s (s.setLine L dir level) :=
  fun b => ⟨getBit_setBit s.ddr (s.bit L) b dir, getBit_setBit s.port (s.bit L) b level⟩

theorem lineState_setLine (s : State) (L : Line) (dir level : Bool) :
    (s.setLine L dir level).lineState L = pairState (dir, level) := by
  simp [lineState_eq_pairState]

/-- Writing a line that is already as asked changes nothing (R87 to R89). -/
theorem setLine_of_lineState (s : State) (L : Line) (dir level : Bool) (h : s.lineState L = pairState (dir, level)) :
    s.setLine L dir level = s := by
  obtain ⟨rfl, rfl⟩ : getBit s.ddr (s.bit L) = dir ∧ getBit s.port (s.bit L) = level :=
    Prod.mk.inj (pairState_injective h)
  simp only [State.setLine, setBit_getBit]

/-- Settles O17: both primitives are a write of one line. -/
theorem holdAndReleaseWriteOneLine : Obligations.HoldAndReleaseWriteOneLine :=
  fun s L =>
    ⟨⟨lineWritten_setLine s L true false, lineState_setLine s L true false, rfl⟩,
      ⟨lineWritten_setLine s L false true, lineState_setLine s L false true, rfl⟩⟩

/-! ### The edge a write makes on the bus (R53) -/

/-- A line is high exactly where neither the engine nor a target pulls it low. -/
theorem level_eq_true_iff (s : State) (ext : Byte) (L : Line) :
    s.level ext L = true ↔ s.lineState L ≠ .held ∧ getBit ext (s.bit L) = false := by
  rw [lineState_eq_pairState]
  unfold State.level State.engLow
  cases getBit s.ddr (s.bit L) <;> cases getBit s.port (s.bit L) <;> simp [pairState]

theorem level_of_held (s : State) (ext : Byte) (L : Line) (h : s.lineState L = .held) : s.level ext L = false :=
  Bool.eq_false_iff.mpr fun high => ((level_eq_true_iff s ext L).mp high).1 h

/-- A write of one line leaves the level of the other. -/
theorem level_setLine_of_ne (s : State) (ext : Byte) (L M : Line) (dir level : Bool) (h : s.bit M ≠ s.bit L) :
    (s.setLine L dir level).level ext M = s.level ext M := by
  simp [State.level, State.engLow, h]

/-- With the clock high, holding a data line that reads high makes the start condition (R87). -/
theorem busEvent_hold_sda (s : State) (ext : Byte) (hne : s.sdaBit ≠ s.sclBit) (hscl : s.level ext .scl = true)
    (hsda : s.level ext .sda = true) :
    busEvent ext s (s.setLine .sda true false).advance = some .startCondition := by
  have hscl' : (s.setLine .sda true false).advance.level ext .scl = true :=
    (level_setLine_of_ne s ext .sda .scl true false hne.symm).trans hscl
  have hsda' : (s.setLine .sda true false).advance.level ext .sda = false :=
    level_of_held (s.setLine .sda true false) ext .sda (lineState_setLine s .sda true false)
  simp [busEvent, hscl, hscl', hsda, hsda']

/-- With the clock high, releasing a HELD data line that no target pulls low makes the stop condition (R88). -/
theorem busEvent_release_sda (s : State) (ext : Byte) (hne : s.sdaBit ≠ s.sclBit) (hscl : s.level ext .scl = true)
    (hheld : s.lineState .sda = .held) (hext : getBit ext s.sdaBit = false) :
    busEvent ext s (s.setLine .sda false true).advance = some .stopCondition := by
  have hscl' : (s.setLine .sda false true).advance.level ext .scl = true :=
    (level_setLine_of_ne s ext .sda .scl false true hne.symm).trans hscl
  have hreleased : (s.setLine .sda false true).lineState .sda = .released := lineState_setLine s .sda false true
  have hsda' : (s.setLine .sda false true).advance.level ext .sda = true :=
    (level_eq_true_iff (s.setLine .sda false true) ext .sda).mpr ⟨by simp [hreleased], hext⟩
  simp [busEvent, hscl, hscl', level_of_held s ext .sda hheld, hsda']

/-! ### The uops that write a line (R87 to R90) -/

theorem upcAdvanced_setLine_advance (s : State) (L : Line) (dir level : Bool) :
    UpcAdvanced s (s.setLine L dir level).advance :=
  upcNext_of_ne s.upc

/-- On a line already as asked only `upc` changes. -/
theorem setLine_advance_of_lineState (s : State) (L : Line) (dir level : Bool)
    (h : s.lineState L = pairState (dir, level)) :
    (s.setLine L dir level).advance = { s with upc := (s.setLine L dir level).advance.upc } := by
  rw [setLine_of_lineState s L dir level h]
  rfl

/-- Settles O18: a write of (1, 0) to the data line, which is low on the bus afterwards. -/
theorem sdaHoldHoldsTheDataLine : Obligations.SdaHoldHoldsTheDataLine :=
  fun s => ⟨(s.setLine .sda true false).advance, rfl, lineWritten_setLine s .sda true false,
    upcAdvanced_setLine_advance s .sda true false, rfl, setLine_advance_of_lineState s .sda true false,
    busEvent_hold_sda s⟩

/-- Settles O19: a write of (0, 1) to the data line, which is high on the bus afterwards if no target pulls it. -/
theorem sdaReleaseReleasesTheDataLine : Obligations.SdaReleaseReleasesTheDataLine :=
  fun s => ⟨(s.setLine .sda false true).advance, rfl, lineWritten_setLine s .sda false true,
    upcAdvanced_setLine_advance s .sda false true, rfl, setLine_advance_of_lineState s .sda false true,
    busEvent_release_sda s⟩

/-- Settles O20: a write of (1, 0) to the clock line. -/
theorem sclHoldHoldsTheClockLine : Obligations.SclHoldHoldsTheClockLine :=
  fun s => ⟨(s.setLine .scl true false).advance, rfl, lineWritten_setLine s .scl true false,
    upcAdvanced_setLine_advance s .scl true false, rfl, setLine_advance_of_lineState s .scl true false⟩

theorem prog_length_le (op : Opcode) (last : Bool) : (prog op last).length ≤ 58 := by
  revert op last
  decide

/-- Behind every SCL_RELEASE of a micro-program stands an SCL_WAIT (R66). -/
theorem prog_sclWait_of_sclRelease (op : Opcode) (last : Bool) (u : Nat)
    (h : (prog op last)[u]? = some Uop.sclRelease) :
    (prog op last)[u + 1]? = some Uop.sclWait := by
  have hu : u < 58 := (List.getElem?_eq_some_iff.mp h).1.trans_le (prog_length_le op last)
  have key : ∀ (op : Opcode) (last : Bool), ∀ u < 58, (prog op last)[u]? = some Uop.sclRelease →
      (prog op last)[u + 1]? = some Uop.sclWait := by decide
  exact key op last u hu h

/-- Settles O21: a write of (0, 1) to the clock line, in which the input ports have no part. -/
theorem sclReleaseReleasesTheClockLine : Obligations.SclReleaseReleasesTheClockLine := by
  refine ⟨fun s => ?written, fun s p => ?noInput, prog_sclWait_of_sclRelease⟩
  case written =>
    exact ⟨(s.setLine .scl false true).advance, rfl, lineWritten_setLine s .scl false true,
      upcAdvanced_setLine_advance s .scl false true, rfl⟩
  case noInput => exact ⟨(s.setLine .scl false true).advance, rfl, rfl⟩

/-! ### Waiting for the clock (R91) -/

theorem exec_sclWait_high (s : State) (h : getBit s.portIn.pin s.sclBit = true) :
    exec .sclWait s = .next s.advance :=
  congrArg Host.Outcome.next (if_pos h)

theorem exec_sclWait_low (s : State) (h : getBit s.portIn.pin s.sclBit = false) : exec .sclWait s = .next s :=
  congrArg Host.Outcome.next (if_neg (Bool.eq_false_iff.mp h))

/-- A reset ends whatever runs (R28, R156). -/
theorem step_reset (s : State) (h : s.portIn.rst = true) : step s = .next s.resetRegs.edge := by
  simp [step, h]

/-- `n` edges later, every register the same. -/
def State.later (n : Nat) (s : State) : State := { s with inputs := s.inputs.drop n, tick := s.tick + n }

theorem later_zero (s : State) : s.later 0 = s := rfl

theorem edge_later (n : Nat) (s : State) : (s.later n).edge = s.later (n + 1) := by
  simp [State.later, State.edge, Nat.add_assoc]

theorem portIn_later (n : Nat) (s : State) : (s.later n).portIn = s.portInAt n := by
  rw [← portInAt_zero]
  simp [State.portInAt, State.later]

/-- As long as every poll reads low, the run is nothing but edges. -/
theorem runSteps_sclWait_low (s : State) (n : Nat) (hb : s.busy = true) (hf : fetchUop s = some Uop.sclWait)
    (hr : NoReset s n) (hw : ∀ k < n, s.pinAt .scl k = false) : runSteps n s = .next (s.later n) := by
  induction n with
  | zero => rfl
  | succ n ih =>
    have before : runSteps n s = .next (s.later n) :=
      ih (fun k hk => hr k (Nat.lt_succ_of_lt hk)) (fun k hk => hw k (Nat.lt_succ_of_lt hk))
    have noReset : (s.later n).portIn.rst = false := by
      rw [portIn_later]
      exact hr n n.lt_succ_self
    have low : getBit (s.later n).portIn.pin (s.later n).sclBit = false := by
      rw [portIn_later]
      exact hw n n.lt_succ_self
    have poll : step (s.later n) = .next (s.later (n + 1)) := by
      rw [step_uop (s.later n) Uop.sclWait .sclWait noReset hb hf rfl, exec_sclWait_low _ low, ← edge_later]
      rfl
    rw [runSteps_succ_last, before]
    exact poll

/-- Settles O22: a low poll passes an edge and nothing more, so any number of them keeps every register. -/
theorem sclWaitWaitsForAHighClock : Obligations.SclWaitWaitsForAHighClock := by
  refine ⟨fun s => ⟨fun high => ?leaves, exec_sclWait_low s⟩, fun s n hb hf hr hw => ?waits⟩
  case leaves => exact ⟨s.advance, exec_sclWait_high s high, upcNext_of_ne s.upc, rfl⟩
  case waits =>
    exact ⟨s.later n, runSteps_sclWait_low s n hb hf hr hw, rfl, hb, fun reset =>
      ⟨_, step_reset (s.later n) reset, rfl⟩⟩

end Sys2Proof.Machine
end

section
/-! PROOFS. spec/42_timing.md: the delay counter (R102), which DELAY_FULL (R100) and DELAY_HALF (R101) share. -/

namespace Sys2Proof.Machine

/-! ### Executing one instruction several times -/

theorem execTimes_one (i : Instr) (s : State) : execTimes i 1 s = exec i s := by
  rw [execTimes]
  cases exec i s <;> rfl

theorem execTimes_succ_of_next {i : Instr} {s t : State} (h : exec i s = .next t) (n : Nat) :
    execTimes i (n + 1) s = execTimes i n t := by
  simp only [execTimes, h]

/-- One more execution after the first `n`. -/
theorem execTimes_succ_last {i : Instr} {n : Nat} {s t : State} (h : execTimes i n s = .next t) :
    execTimes i (n + 1) s = exec i t := by
  induction n generalizing s with
  | zero =>
    cases h
    exact execTimes_one i _
  | succ n ih =>
    rw [execTimes] at h
    cases first : exec i s with
    | next u =>
      rw [first] at h
      rw [execTimes_succ_of_next first, ih h]
    | fault | refused =>
      rw [first] at h
      cases h

/-! ### One step of a delay (R102) -/

theorem delayCount_eq (n : Nat) (s : State) : s.delayCount n = if s.dlyRun = false then n else s.dly := by
  cases h : s.dlyRun <;> simp [State.delayCount, h]

theorem delayStep_of_delayCount_le_one (n : Nat) (s : State) (h : s.delayCount n ≤ 1) :
    s.delayStep n = { s with dly := 0, dlyRun := false, upc := upcNext s.upc } :=
  if_pos h

theorem delayStep_of_one_lt_delayCount (n : Nat) (s : State) (h : 1 < s.delayCount n) :
    s.delayStep n = { s with dly := s.delayCount n - 1, dlyRun := true } :=
  if_neg h.not_ge

/-! ### A whole delay -/

/-- A state with `k` of the `n` steps of its delay done, for `k < n`. -/
def State.delaying (n k : Nat) (s : State) : State := if k = 0 then s else { s with dly := n - k, dlyRun := true }

/-- A delay of `n` steps has `n - k` to go after `k` of them. -/
theorem delayCount_delaying (n k : Nat) (s : State) (idle : s.dlyRun = false) :
    (s.delaying n k).delayCount n = n - k := by
  unfold State.delaying State.delayCount
  by_cases h : k = 0 <;> simp [h, idle]

/-- A step with another to follow. -/
theorem delayStep_delaying (n k : Nat) (s : State) (idle : s.dlyRun = false) (h : k + 1 < n) :
    (s.delaying n k).delayStep n = s.delaying n (k + 1) := by
  have count : (s.delaying n k).delayCount n = n - k := delayCount_delaying n k s idle
  rw [delayStep_of_one_lt_delayCount n _ (by omega), count]
  unfold State.delaying
  by_cases h0 : k = 0 <;> simp [h0, Nat.sub_sub]

/-- An idle counter stands at 0 already. -/
theorem stopDelay_of_idle (s : State) (zero : s.dly = 0) (idle : s.dlyRun = false) :
    { s with dly := 0, dlyRun := false } = s := by
  rw [← zero, ← idle]

/-- The last step, the first one too when `k = 0`. -/
theorem delayStep_delaying_last (k : Nat) (s : State) (zero : s.dly = 0) (idle : s.dlyRun = false) :
    (s.delaying (k + 1) k).delayStep (k + 1) = s.advance := by
  have count : (s.delaying (k + 1) k).delayCount (k + 1) = k + 1 - k := delayCount_delaying (k + 1) k s idle
  rw [delayStep_of_delayCount_le_one (k + 1) _ (by omega)]
  cases k <;> exact congrArg State.advance (stopDelay_of_idle s zero idle)

section
variable {i : Instr} {n : Nat} (delays : ∀ s : State, exec i s = .next (s.delayStep n))
include delays

/-- The first `n - 1` steps count down. -/
theorem execTimes_delay_lt (s : State) (idle : s.dlyRun = false) (k : Nat) (h : k < n) :
    execTimes i k s = .next (s.delaying n k) := by
  induction k with
  | zero => rfl
  | succ k ih => rw [execTimes_succ_last (ih (by omega)), delays, delayStep_delaying n k s idle h]

/-- After `n` steps `upc` has advanced and the counter is idle again. -/
theorem execTimes_delay (hn : 1 ≤ n) (s : State) (zero : s.dly = 0) (idle : s.dlyRun = false) :
    execTimes i n s = .next s.advance := by
  obtain ⟨k, rfl⟩ : ∃ k, n = k + 1 := ⟨n - 1, by omega⟩
  rw [execTimes_succ_last (execTimes_delay_lt delays s idle k k.lt_succ_self), delays,
    delayStep_delaying_last k s zero idle]

end

/-- Both delay uops step the counter, by a length of at least 1 (R5, R100, R101). -/
theorem exec_delay (i : Instr) (n : Nat)
    (h : (i = .delayFull ∧ n = Config.delayFullCycles) ∨ (i = .delayHalf ∧ n = Config.delayHalfCycles)) :
    1 ≤ n ∧ ∀ s : State, exec i s = .next (s.delayStep n) := by
  obtain ⟨rfl, rfl⟩ | ⟨rfl, rfl⟩ := h
  · exact ⟨Nat.succ_pos Config.delayFullExtra, fun _ => rfl⟩
  · exact ⟨Nat.succ_pos Config.delayHalfExtra, fun _ => rfl⟩

/-- Settles O23: one step counts down or ends the delay, so after `k` of `n` steps `n - k` are left. -/
theorem delayCounterRule : Obligations.DelayCounterRule := by
  intro i n h
  obtain ⟨hn, delays⟩ := exec_delay i n h
  refine ⟨hn, fun s cnt hcnt => ?oneStep, fun s zero idle => ?wholeDelay⟩
  case oneStep =>
    obtain rfl : s.delayCount n = cnt := (delayCount_eq n s).trans hcnt.symm
    rw [delays]
    refine ⟨fun ends => ?_, fun counts => ?_⟩
    · exact ⟨_, congrArg _ (delayStep_of_delayCount_le_one n s ends), upcNext_of_ne s.upc, rfl⟩
    · exact congrArg _ (delayStep_of_one_lt_delayCount n s counts)
  case wholeDelay =>
    exact ⟨execTimes_delay_lt delays s idle, s.advance, execTimes_delay delays hn s zero idle,
      upcNext_of_ne s.upc, rfl⟩

end Sys2Proof.Machine
end

section
/-! PROOFS. spec/44_write_byte.md: SDA_PUT (R121), one bit of `sh` on the data line; eight of them send the byte. -/

namespace Sys2Proof.Machine

/-! ### Executing one instruction several times -/

/-- `n` executions of an instruction that answers by an update are `n` updates. -/
theorem execTimes_eq_iterate {i : Instr} {f : State → State} (h : ∀ s, exec i s = .next (f s)) (n : Nat) (s : State) :
    execTimes i n s = .next (f^[n] s) := by
  induction n with
  | zero => rfl
  | succ n ih => rw [execTimes_succ_last ih, h, Function.iterate_succ_apply']

/-! ### One execution of SDA_PUT (R121) -/

/-- The top bit of `sh` to the data line, `sh` shifted, `upc` advanced. -/
def State.sdaPut (s : State) : State :=
  { s.setLine .sda (!msb s.sh) (msb s.sh) with sh := shiftOut s.sh }.advance

theorem exec_sdaPut (s : State) : exec .sdaPut s = .next s.sdaPut := (exec_uop s).2.2.2.2.2.2.2.1

@[simp] theorem State.sdaPut_sh (s : State) : s.sdaPut.sh = shiftOut s.sh := rfl

theorem lineWritten_sdaPut (s : State) : LineWritten .sda (!msb s.sh) (msb s.sh) s s.sdaPut :=
  lineWritten_setLine s .sda (!msb s.sh) (msb s.sh)

/-- The bit sent is to be read off the line: HELD for 0, RELEASED for 1. -/
theorem lineState_sdaPut (s : State) : s.sdaPut.lineState .sda = if msb s.sh then .released else .held := by
  calc s.sdaPut.lineState .sda
      = pairState (!msb s.sh, msb s.sh) := lineState_setLine s .sda (!msb s.sh) (msb s.sh)
    _ = if msb s.sh then .released else .held := by cases msb s.sh <;> rfl

theorem getLsbD_zero_shiftOut (v : Byte) : (shiftOut v).getLsbD 0 = false :=
  getLsbD_shiftOut v 0 (by decide)

theorem getLsbD_succ_shiftOut (v : Byte) (b : Nat) (h : b < 7) : (shiftOut v).getLsbD (b + 1) = v.getLsbD b := by
  simp [getLsbD_shiftOut v (b + 1) (by omega)]

/-! ### Several executions -/

/-- Each execution shifts `sh` once, whatever it sends. -/
theorem sh_iterate_sdaPut (k : Nat) (s : State) : (State.sdaPut^[k] s).sh = s.sh <<< k := by
  induction k with
  | zero => simp
  | succ k ih => rw [Function.iterate_succ_apply', State.sdaPut_sh, ih, shiftOut, BitVec.shiftLeft_add]

/-- After `k` shifts bit `7 - k` stands on top. -/
theorem msb_shiftLeft (v : Byte) (k : Nat) (h : k < 8) : msb (v <<< k) = v.getLsbD (7 - k) := by
  have noZero : ¬ 7 < k := by omega
  rw [msb, BitVec.getLsbD_shiftLeft]
  simp [noZero]

/-- The line after execution number `k + 1`. -/
theorem lineState_iterate_sdaPut (k : Nat) (h : k < 8) (s : State) :
    (State.sdaPut^[k + 1] s).lineState .sda = if s.sh.getLsbD (7 - k) then .released else .held := by
  rw [Function.iterate_succ_apply', lineState_sdaPut, sh_iterate_sdaPut, msb_shiftLeft s.sh k h]

/-- Settles O24: before execution number `k + 1` the byte has been shifted `k` times, so bit `7 - k` is sent. -/
theorem sdaPutSendsMsbFirst : Obligations.SdaPutSendsMsbFirst := by
  refine fun s => ⟨?oneStep, fun k hk => ?line, ?emptied⟩
  case oneStep =>
    exact ⟨s.sdaPut, exec_sdaPut s, lineWritten_sdaPut s, getLsbD_zero_shiftOut s.sh, getLsbD_succ_shiftOut s.sh,
      upcNext_of_ne s.upc, rfl⟩
  case line => exact ⟨_, execTimes_eq_iterate exec_sdaPut (k + 1) s, lineState_iterate_sdaPut k hk s⟩
  case emptied =>
    exact ⟨_, execTimes_eq_iterate exec_sdaPut 8 s,
      (sh_iterate_sdaPut 8 s).trans (BitVec.shiftLeft_eq_zero le_rfl)⟩

end Sys2Proof.Machine
end

section
/-! PROOFS. spec/45_read_byte.md: SDA_GET (R131), one sample of the data line into `sh`; eight of them make the byte. -/

namespace Sys2Proof.Machine

/-! ### One execution of SDA_GET (R131) -/

/-- The level on the data line into `sh`, `upc` advanced. -/
def State.sdaGet (s : State) : State := { s with sh := shiftIn s.sh (s.envPin .sda) }.advance

theorem exec_sdaGet (s : State) : exec .sdaGet s = .next s.sdaGet := (exec_uop s).2.2.2.2.2.2.2.2.1

theorem getLsbD_zero_shiftIn (v : Byte) (d : Bool) : (shiftIn v d).getLsbD 0 = d :=
  getLsbD_shiftIn v d 0 (by decide)

theorem getLsbD_succ_shiftIn (v : Byte) (d : Bool) (b : Nat) (h : b < 7) :
    (shiftIn v d).getLsbD (b + 1) = v.getLsbD b :=
  getLsbD_shiftIn v d (b + 1) (Nat.succ_lt_succ h)

/-! ### Several executions -/

/-- Every execution answers a next state, and shifts its own sample into `sh`. -/
theorem exists_sampleBits_eq_next (ps : List Byte) (s : State) :
    ∃ t, sampleBits ps s = .next t ∧ t.sh = (ps.map (getBit · s.sdaBit)).foldl shiftIn s.sh := by
  induction ps generalizing s with
  | nil => exact ⟨s, rfl, rfl⟩
  | cons p ps ih =>
    obtain ⟨t, run, sh⟩ := ih (s.withPortIn ⟨false, false, 0#12, p⟩).sdaGet
    refine ⟨t, ?_, sh⟩
    simp only [sampleBits, exec_sdaGet, run]

/-- A bit moves up by one place with each sample shifted in. -/
theorem getLsbD_foldl_shiftIn_add (ds : List Bool) (v : Byte) (b : Nat) (h : b + ds.length < 8) :
    (ds.foldl shiftIn v).getLsbD (b + ds.length) = v.getLsbD b := by
  induction ds generalizing v b with
  | nil => rfl
  | cons d ds ih =>
    rw [List.length_cons] at h
    calc ((d :: ds).foldl shiftIn v).getLsbD (b + (d :: ds).length)
        = (ds.foldl shiftIn (shiftIn v d)).getLsbD (b + 1 + ds.length) := by
          rw [List.foldl_cons, List.length_cons, Nat.add_right_comm, Nat.add_assoc]
      _ = (shiftIn v d).getLsbD (b + 1) := ih (shiftIn v d) (b + 1) (by omega)
      _ = v.getLsbD b := getLsbD_succ_shiftIn v d b (by omega)

/-- Of at most eight samples, number `k` ends as many places above bit 0 as samples follow it. -/
theorem getLsbD_foldl_shiftIn (ds : List Bool) (v : Byte) (k : Nat) (d : Bool) (hlen : ds.length ≤ 8)
    (hd : ds[k]? = some d) : (ds.foldl shiftIn v).getLsbD (ds.length - 1 - k) = d := by
  induction ds generalizing v k with
  | nil => cases hd
  | cons e ds ih =>
    rw [List.length_cons] at hlen
    rw [List.foldl_cons, List.length_cons, Nat.add_sub_cancel]
    cases k with
    | zero =>
      obtain rfl : e = d := Option.some.inj hd
      have moved := getLsbD_foldl_shiftIn_add ds (shiftIn v e) 0 (by omega)
      rwa [Nat.zero_add, getLsbD_zero_shiftIn] at moved
    | succ k =>
      rw [Nat.add_comm k 1, ← Nat.sub_sub]
      exact ih (shiftIn v e) k (by omega) hd

/-- Settles O25: a sample enters at bit 0 and moves up once with each that follows, seven times for the first. -/
theorem sdaGetAssemblesMsbFirst : Obligations.SdaGetAssemblesMsbFirst := by
  refine ⟨fun s => ?oneStep, fun s ps hps => ?eightSamples⟩
  case oneStep =>
    exact ⟨s.sdaGet, exec_sdaGet s, getLsbD_zero_shiftIn s.sh (s.envPin .sda),
      getLsbD_succ_shiftIn s.sh (s.envPin .sda), upcNext_of_ne s.upc, rfl⟩
  case eightSamples =>
    obtain ⟨t, run, sh⟩ := exists_sampleBits_eq_next ps s
    refine ⟨t, run, fun k _ p hp => ?_⟩
    have sampled := getLsbD_foldl_shiftIn (ps.map (getBit · s.sdaBit)) s.sh k (getBit p s.sdaBit)
      (by simp [hps]) (by simp [hp])
    rwa [← sh, List.length_map, hps] at sampled

end Sys2Proof.Machine
end

section
/-! PROOFS. spec/46_transactions.md: what the host does with the response of the command it issued (R141 to R143). -/

namespace Sys2Proof.Machine

theorem HostProg.respond_false_of_write {h : HostProg} {v : Byte} {cs : List Instr} (hd : h.todo = .write v :: cs)
    (data : Byte) : h.respond false data = ⟨[], h.buf, some false⟩ := by
  simp [HostProg.respond, hd, isWrite]

theorem HostProg.respond_true_of_cons {h : HostProg} {c : Instr} {cs : List Instr} (hd : h.todo = c :: cs)
    (data : Byte) : h.respond true data =
      ⟨cs, if isRead c then h.buf ++ [data] else h.buf, if cs.isEmpty then some true else none⟩ := by
  simp [HostProg.respond, hd]

/-- Settles O49: a WRITE answered 0 takes the branch that ends the program, and an answer of 1 never does. -/
theorem firstUnacknowledgedWriteAborts : Obligations.FirstUnacknowledgedWriteAborts := by
  intro h c cs data hd
  rw [HostProg.respond_true_of_cons hd]
  refine ⟨?writeFails, rfl, ?success, ?readByte⟩
  case writeFails =>
    rintro v rfl
    rw [HostProg.respond_false_of_write hd]
    exact ⟨rfl, rfl⟩
  case success => cases cs <;> simp
  case readByte =>
    rintro last rfl
    rfl

end Sys2Proof.Machine
end

section
/-! PROOFS. spec/60_exceptions.md: what decides a step first, and the one cause of an exception (R156). -/

namespace Sys2Proof.Machine

/-- The uop of a busy block reads nothing of the command port. -/
theorem step_withPortIn_busy (s : State) (p q : PortIn) (hb : s.busy = true) (hrst : p.rst = q.rst)
    (hpin : p.pin = q.pin) : step (s.withPortIn p) = step (s.withPortIn q) := by
  have sameUop : stepUop (s.withPortIn p) = stepUop (s.withPortIn q) :=
    stepUop_withPortIn s p q (fun _ => by rw [hpin]) (fun _ => by rw [hpin])
  rw [step_withPortIn, step_withPortIn, hrst, if_pos hb, if_pos hb, sameUop]

/-- Only the micro-program of a WRITE samples an acknowledgment, and it does so once (R66, R120). -/
theorem count_ackGet_prog (op : Opcode) (last : Bool) :
    (prog op last).count Uop.ackGet = if op = Opc.write then 1 else 0 := by
  split
  case isTrue write => subst write; rfl
  case isFalse other => exact List.count_eq_zero.mpr (mt (prog_only op last).2 other)

/-- Settles O16: a step looks at `rst` first, then at `busy`, and only an idle block's step at the command port; that
such a step takes the command presented is what `outputsAndReady` says of `busy`. -/
theorem busyBlockIgnoresTheCommandPort : Obligations.BusyBlockIgnoresTheCommandPort := by
  refine ⟨fun s p q hp hq => ?reset, step_withPortIn_busy, fun s t h hr hb hv => ?taken, count_ackGet_prog⟩
  case reset =>
    calc step (s.withPortIn p)
        = .next s.resetRegs.edge := step_reset (s.withPortIn p) hp
      _ = step (s.withPortIn q) := (step_reset (s.withPortIn q) hq).symm
  case taken =>
    obtain ⟨-, busyRises⟩ := outputsAndReady
    exact (busyRises s t h hb).mpr (by simp [State.cmdReady, hr, hb, hv])

end Sys2Proof.Machine
end

section
/-! PROOFS. spec/70_reset_and_hazards.md, reset (R170, R171) and the open-drain rule (R190). -/

namespace Sys2Proof.Machine

/-! ### Reset (R170, R171) -/

/-- Settles O7: `State.reset` is one fixed state, and its two lines stand at (0, 0). -/
theorem resetHoldsTheTableValues : Obligations.ResetHoldsTheTableValues := by
  unfold Obligations.ResetHoldsTheTableValues
  decide

/-- Settles O8: a step looks at `rst` first, so nothing else presented has a part in its answer. -/
theorem resetStepSetsEveryRegister : Obligations.ResetStepSetsEveryRegister :=
  fun s reset => ⟨by simp [State.cmdReady, reset], s.resetRegs.edge, step_reset s reset, rfl⟩

/-! ### What BIND_LATCH leaves in each register (R81) -/

/-- BIND_LATCH writes the binding and nothing else, and a binding already set it writes as it was. -/
theorem latchBinding_eq (s : State) :
    s.latchBinding = { s with
      bound := true
      sdaBit := if s.bound then s.sdaBit else sdaField s.sh
      sclBit := if s.bound then s.sclBit else sclField s.sh } := by
  obtain ⟨hb, e⟩ | ⟨hb, e⟩ := s.latchBinding_cases
  · rw [e, if_pos hb, if_pos hb, ← hb]
  · simp [e, hb]

section
variable (s : State)

@[simp] theorem State.latchBinding_bound : s.latchBinding.bound = true := by rw [latchBinding_eq]
@[simp] theorem State.latchBinding_sdaBit : s.latchBinding.sdaBit = if s.bound then s.sdaBit else sdaField s.sh := by
  rw [latchBinding_eq]
@[simp] theorem State.latchBinding_sclBit : s.latchBinding.sclBit = if s.bound then s.sclBit else sclField s.sh := by
  rw [latchBinding_eq]
@[simp] theorem State.latchBinding_ddr : s.latchBinding.ddr = s.ddr := by rw [latchBinding_eq]
@[simp] theorem State.latchBinding_port : s.latchBinding.port = s.port := by rw [latchBinding_eq]
@[simp] theorem State.latchBinding_busy : s.latchBinding.busy = s.busy := by rw [latchBinding_eq]
@[simp] theorem State.latchBinding_op : s.latchBinding.op = s.op := by rw [latchBinding_eq]
@[simp] theorem State.latchBinding_nack : s.latchBinding.nack = s.nack := by rw [latchBinding_eq]
@[simp] theorem State.latchBinding_upc : s.latchBinding.upc = s.upc := by rw [latchBinding_eq]
@[simp] theorem State.latchBinding_phase : s.latchBinding.phase = s.phase := by rw [latchBinding_eq]
@[simp] theorem State.latchBinding_inputs : s.latchBinding.inputs = s.inputs := by rw [latchBinding_eq]
@[simp] theorem State.latchBinding_tick : s.latchBinding.tick = s.tick := by rw [latchBinding_eq]

end

/-! ### What a step can do to the bank -/

/-- The bank of `t` is that of `s`, but for one line at most: a line written has a level opposite to its direction, so
it is HELD or RELEASED (R85, R86). -/
def BankKeptOrLineWritten (s t : State) : Prop :=
  (t.ddr = s.ddr ∧ t.port = s.port) ∨
  ∃ L level, t.ddr = (s.setLine L (!level) level).ddr ∧ t.port = (s.setLine L (!level) level).port

theorem bankKeptOrLineWritten_of_acceptBound (w : CmdWord) (s t : State) (h : acceptBound w s = .next t) :
    BankKeptOrLineWritten s t := by
  obtain ⟨-, rfl⟩ := (acceptBound_eq_next w s t).mp h
  exact .inl ⟨rfl, rfl⟩

theorem bankKeptOrLineWritten_delayStep (n : Nat) (s : State) : BankKeptOrLineWritten s (s.delayStep n) := by
  obtain ⟨-, e⟩ | ⟨-, e⟩ := s.delayStep_cases n <;> rw [e] <;> exact .inl ⟨rfl, rfl⟩

/-- A meaning leaves the bank alone or writes one line (R32, R44). -/
theorem bankKeptOrLineWritten_of_exec (i : Instr) (s t : State) (h : exec i s = .next t) :
    BankKeptOrLineWritten s t := by
  cases i with
  | start | stop | write | read => exact bankKeptOrLineWritten_of_acceptBound _ s t h
  | bind sda scl =>
    by_cases e : sda = scl
    · simp [exec, execBind, e] at h
    · simp only [exec, execBind, if_neg e] at h
      cases h
      exact .inl ⟨rfl, rfl⟩
  | sdaHold => cases h; exact .inr ⟨.sda, false, rfl, rfl⟩
  | sdaRelease => cases h; exact .inr ⟨.sda, true, rfl, rfl⟩
  | sclHold => cases h; exact .inr ⟨.scl, false, rfl, rfl⟩
  | sclRelease => cases h; exact .inr ⟨.scl, true, rfl, rfl⟩
  | sdaPut => cases (exec_sdaPut s).symm.trans h; exact .inr ⟨.sda, msb s.sh, rfl, rfl⟩
  | delayFull | delayHalf => cases h; exact bankKeptOrLineWritten_delayStep _ s
  | sclWait | ackGet => cases h; split <;> exact .inl ⟨rfl, rfl⟩
  | sdaGet | endUop => cases h; exact .inl ⟨rfl, rfl⟩
  | bindLatch => cases h; exact .inl ⟨s.latchBinding_ddr, s.latchBinding_port⟩

/-! ### The open-drain rule (R17, R190) -/

theorem neverDrivenHigh_of_bankKeptOrLineWritten {s t : State} (hs : NeverDrivenHigh s)
    (h : BankKeptOrLineWritten s t) : NeverDrivenHigh t := by
  obtain ⟨ddr, port⟩ | ⟨L, level, ddr, port⟩ := h
  · rwa [NeverDrivenHigh, ddr, port]
  · rw [NeverDrivenHigh, ddr, port]
    exact setLine_keeps_open_drain s L (!level) level (Bool.not_and_self level) hs

theorem neverDrivenHigh_of_step {s t : State} (hs : NeverDrivenHigh s) (h : step s = .next t) : NeverDrivenHigh t := by
  obtain ⟨-, rfl⟩ | ⟨-, -, -, rfl⟩ | ⟨-, -, -, i, u, -, he, rfl⟩ | ⟨-, -, c, i, u, -, -, he, rfl⟩ :=
    step_cases s t h
  · exact (by decide : NeverDrivenHigh State.reset)
  · exact hs
  · exact neverDrivenHigh_of_bankKeptOrLineWritten hs (bankKeptOrLineWritten_of_exec i s u he)
  · exact neverDrivenHigh_of_bankKeptOrLineWritten hs (bankKeptOrLineWritten_of_exec i s u he)

theorem lineState_ne_drivenHigh {s : State} (hs : NeverDrivenHigh s) (L : Line) : s.lineState L ≠ .drivenHigh := by
  intro high
  have bits : (getBit s.ddr (s.bit L), getBit s.port (s.bit L)) = (true, true) := pairState_injective high
  exact (and_eq_zero_iff s.ddr s.port).mp hs (s.bit L) (Prod.mk.inj bits)

/-- Settles O30: a step resets the bank, leaves it, or writes one line with a level opposite to its direction. -/
theorem openDrainKeptByEveryStep : Obligations.OpenDrainKeptByEveryStep := by
  intro s t hs h
  have ht : NeverDrivenHigh t := neverDrivenHigh_of_step hs h
  exact ⟨ht, lineState_ne_drivenHigh ht .sda, lineState_ne_drivenHigh ht .scl⟩

end Sys2Proof.Machine
end

section
/-! PROOFS. spec/70_reset_and_hazards.md, whole commands: a second BIND (R189), the step counts of START and STOP
(R192). -/

namespace Sys2Proof.Machine

/-! ### BIND (R80, R81, R189) -/

/-- A BIND accepted. -/
def State.bindAccepted (w : CmdWord) (s : State) : State := (s.accept w).edge

/-- A BIND accepted, its BIND_LATCH run. -/
def State.bindLatched (w : CmdWord) (s : State) : State := (s.bindAccepted w).latchBinding.advance.edge

/-- A BIND accepted, its BIND_LATCH and its END run. -/
def State.bindEnded (w : CmdWord) (s : State) : State := ((s.bindLatched w).complete true).edge

/-- The response of BIND, the binding it leaves, and the registers it does not touch. -/
theorem bindEnded_registers (w : CmdWord) (s : State) (ho : opcOf w = Opc.bind) :
    (s.bindEnded w).busy = false ∧ (s.bindEnded w).rspValid = true ∧ (s.bindEnded w).rspOk = true ∧
    (s.bindEnded w).nack = false ∧ (s.bindEnded w).bound = true ∧
    (s.bindEnded w).sdaBit = (if s.bound then s.sdaBit else sdaField (argOf w)) ∧
    (s.bindEnded w).sclBit = (if s.bound then s.sclBit else sclField (argOf w)) ∧
    (s.bindEnded w).ddr = s.ddr ∧ (s.bindEnded w).port = s.port ∧ (s.bindEnded w).phase = s.phase := by
  have phase : phaseAfter Opc.bind s.phase = s.phase := rfl
  cases hb : s.bound <;> simp [State.bindEnded, State.bindLatched, State.bindAccepted, ho, hb, phase]

theorem fetchUop_of_bind {t : State} (ho : t.op = Opc.bind) :
    fetchUop t = [Uop.bindLatch, Uop.endUop][t.upc.toNat]? := by
  rw [fetchUop, ho]
  rfl

/-- The inputs after an edge, for a meaning that has left them alone. -/
theorem portIn_edge (v s : State) (hi : v.inputs = s.inputs) (ht : v.tick = s.tick) :
    v.edge.portIn = s.portInAt 1 := by
  rw [← portInAt_zero, portInAt_edge v s hi ht]

theorem runSteps_succ_of_step {s t : State} (h : step s = .next t) (n : Nat) :
    runSteps (n + 1) s = runSteps n t := by
  rw [runSteps_succ, h]

section
variable {w : CmdWord} {s : State}

theorem step_of_presented_bind (ho : opcOf w = Opc.bind) (legal : LegalWord w) (hp : Presented w s)
    (rst : (s.portInAt 0).rst = false) : step s = .next (s.bindAccepted w) := by
  obtain ⟨idle, -, valid, rfl⟩ := hp
  rw [step_legalWord s (portInAt_zero s ▸ rst) idle valid legal, if_pos (.inr ho)]
  rfl

theorem step_bindAccepted (ho : opcOf w = Opc.bind) (rst : (s.portInAt 1).rst = false) :
    step (s.bindAccepted w) = .next (s.bindLatched w) := by
  have fetched : fetchUop (s.bindAccepted w) = some Uop.bindLatch := fetchUop_of_bind ho
  have noReset : (s.bindAccepted w).portIn.rst = false := by rwa [State.bindAccepted, portIn_edge (s.accept w) s rfl rfl]
  exact step_uop _ Uop.bindLatch .bindLatch noReset rfl fetched rfl

theorem step_bindLatched (ho : opcOf w = Opc.bind) (rst : (s.portInAt 2).rst = false) :
    step (s.bindLatched w) = .next (s.bindEnded w) := by
  have op : (s.bindLatched w).op = Opc.bind := (s.bindAccepted w).latchBinding_op.trans ho
  have upc : (s.bindLatched w).upc = 1#6 := congrArg upcNext (s.bindAccepted w).latchBinding_upc
  have fetched : fetchUop (s.bindLatched w) = some Uop.endUop := by
    rw [fetchUop_of_bind op, upc]
    rfl
  have noReset : (s.bindLatched w).portIn.rst = false := by
    rwa [State.bindLatched, portIn_edge _ (s.bindAccepted w) (by simp) (by simp), State.bindAccepted,
      portInAt_edge (s.accept w) s rfl rfl]
  exact step_uop _ Uop.endUop .endUop noReset (s.bindAccepted w).latchBinding_busy fetched rfl

/-- The accept and the two steps of BIND's micro-program. -/
theorem runSteps_bind (ho : opcOf w = Opc.bind) (legal : LegalWord w) (hp : Presented w s) (noReset : NoReset s 3) :
    runSteps 3 s = .next (s.bindEnded w) :=
  calc runSteps 3 s
      = runSteps 2 (s.bindAccepted w) :=
        runSteps_succ_of_step (step_of_presented_bind ho legal hp (noReset 0 (by decide))) 2
    _ = runSteps 1 (s.bindLatched w) := runSteps_succ_of_step (step_bindAccepted ho (noReset 1 (by decide))) 1
    _ = runSteps 0 (s.bindEnded w) := runSteps_succ_of_step (step_bindLatched ho (noReset 2 (by decide))) 0

end

/-- Settles O37: BIND_LATCH reads its positions off the word accepted, and leaves a binding that is set already. -/
theorem bindRunsToItsEnd : Obligations.BindRunsToItsEnd := by
  intro s sda scl differ presented noReset
  rw [← commandWord_bind] at presented
  have legal : LegalWord (commandWord (.bind sda scl)) :=
    legalWord_commandWord (.bind sda scl) rfl ((wellFormed_bind_iff sda scl).mpr differ)
  have ho : opcOf (commandWord (.bind sda scl)) = Opc.bind := opcOf_cmdWord Opc.bind (bindArg sda scl)
  have ha : argOf (commandWord (.bind sda scl)) = bindArg sda scl := argOf_cmdWord Opc.bind (bindArg sda scl)
  have registers := bindEnded_registers (commandWord (.bind sda scl)) s ho
  rw [ha, sdaField_bindArg, sclField_bindArg] at registers
  exact ⟨_, runSteps_bind ho legal presented noReset, registers⟩

/-! ### START and STOP (R110, R112, R192) -/

section
variable {s : State} {op : Opcode} {last : Bool} {k u : Nat} {d : Option Nat} {sh : Byte} {sda scl : Bool × Bool}
  {t : State}

/-- The lines of a command in flight, at a step number spelt as a statement spells it. -/
theorem Running.linesAt (h : Running s op last k u d sh sda scl t) {n : Nat} (hn : n = k) :
    ∃ v, runSteps n s = .next v ∧ v.lineState .sda = pairState sda ∧ v.lineState .scl = pairState scl :=
  ⟨t, hn ▸ h.run, h.lines⟩

theorem boundary_br_of_lines (h : t.lineState .sda = .released ∧ t.lineState .scl = .released) :
    t.boundary = some .br := by
  simp [State.boundary, h]

theorem boundary_bh_of_lines (h : t.lineState .sda = .held ∧ t.lineState .scl = .held) :
    t.boundary = some .bh := by
  simp [State.boundary, h]

theorem Running.brAt (h : Running s op last k u d sh (false, true) (false, true) t) {n : Nat} (hn : n = k) :
    ∃ v, runSteps n s = .next v ∧ v.boundary = some .br :=
  ⟨t, hn ▸ h.run, boundary_br_of_lines h.lines⟩

theorem Running.bhAt (h : Running s op last k u d sh (true, false) (true, false) t) {n : Nat} (hn : n = k) :
    ∃ v, runSteps n s = .next v ∧ v.boundary = some .bh :=
  ⟨t, hn ▸ h.run, boundary_bh_of_lines h.lines⟩

end

/-- With the binding made, START and STOP are accepted (R29). -/
theorem exec_start_of_bound (s : State) (h : s.bound = true) : exec .start s = .next (s.accept 0x100#12) :=
  (acceptBound_eq_next 0x100#12 s _).mpr ⟨h, rfl⟩

theorem exec_stop_of_bound (s : State) (h : s.bound = true) : exec .stop s = .next (s.accept 0x200#12) :=
  (acceptBound_eq_next 0x200#12 s _).mpr ⟨h, rfl⟩

/-- Settles O38: the eight uops of START one after the other, the wait of `d + 1` steps and two full delays among them. -/
theorem startRunsToItsEnd : Obligations.StartRunsToItsEnd := by
  intro s d ⟨bound, differ⟩ presented noReset wait
  obtain ⟨_, accepted⟩ := Running.accepted presented (noReset 0 (by omega)) rfl (exec_start_of_bound s bound)
  obtain ⟨_, sdaReleased⟩ := accepted.sdaRelease (by decide) differ (noReset 1 (by omega)) rfl
  obtain ⟨_, sclReleased⟩ := sdaReleased.sclRelease (by decide) differ (noReset 2 (by omega)) rfl
  obtain ⟨_, clockHigh⟩ := sclReleased.wait d (by decide) (fun j hj => noReset (3 + j) (by omega)) rfl wait
  obtain ⟨_, setUp⟩ := clockHigh.delayed (.inl ⟨rfl, rfl⟩) (by decide) (fun j hj => noReset _ (by omega)) rfl
  obtain ⟨_, sdaHeld⟩ := setUp.sdaHold (by decide) differ (noReset _ (by omega)) rfl
  obtain ⟨_, kept⟩ := sdaHeld.delayed (.inl ⟨rfl, rfl⟩) (by decide) (fun j hj => noReset _ (by omega)) rfl
  obtain ⟨_, sclHeld⟩ := kept.sclHold (by decide) differ (noReset _ (by omega)) rfl
  obtain ⟨t, run, idle, valid, ok, nack, -, -, phase, binding, others, lines⟩ :=
    sclHeld.finish (noReset _ (by omega)) rfl
  refine ⟨sdaReleased.linesAt rfl, sclReleased.brAt rfl, clockHigh.brAt (by omega), setUp.brAt (by omega),
    sdaHeld.linesAt (by omega), kept.linesAt (by omega), sclHeld.bhAt (by omega), t, ?ended, boundary_bh_of_lines lines,
    idle, valid, ok, phase, nack, binding, others⟩
  case ended => exact (congrArg (runSteps · s) (by omega)).trans run

/-- Settles O39: the six uops of STOP one after the other, the wait of `d + 1` steps and one full delay among them. -/
theorem stopRunsToItsEnd : Obligations.StopRunsToItsEnd := by
  intro s d ⟨bound, differ⟩ presented noReset wait
  obtain ⟨_, accepted⟩ := Running.accepted presented (noReset 0 (by omega)) rfl (exec_stop_of_bound s bound)
  obtain ⟨_, sdaHeld⟩ := accepted.sdaHold (by decide) differ (noReset 1 (by omega)) rfl
  obtain ⟨_, sclReleased⟩ := sdaHeld.sclRelease (by decide) differ (noReset 2 (by omega)) rfl
  obtain ⟨_, clockHigh⟩ := sclReleased.wait d (by decide) (fun j hj => noReset (3 + j) (by omega)) rfl wait
  obtain ⟨_, setUp⟩ := clockHigh.delayed (.inl ⟨rfl, rfl⟩) (by decide) (fun j hj => noReset _ (by omega)) rfl
  obtain ⟨_, sdaReleased⟩ := setUp.sdaRelease (by decide) differ (noReset _ (by omega)) rfl
  obtain ⟨t, run, idle, valid, ok, nack, -, -, phase, binding, others, lines⟩ :=
    sdaReleased.finish (noReset _ (by omega)) rfl
  refine ⟨sdaHeld.linesAt rfl, sclReleased.linesAt rfl, clockHigh.linesAt (by omega), setUp.linesAt (by omega),
    sdaReleased.brAt (by omega), t, ?ended, boundary_br_of_lines lines, idle, valid, ok, phase, nack, binding, others⟩
  case ended => exact (congrArg (runSteps · s) (by omega)).trans run

end Sys2Proof.Machine
end

section
/-! PROOFS. spec/30_encoding.md: the decoder and the encoder undo each other (R62, R64, R65), for every word and every
operand. -/

namespace Sys2Proof.Machine

/-! ### Either level of words -/

/-- A command is encoded by its command word. -/
theorem encode_of_isCommand (i : Instr) (h : i.isCommand = true) : encode i = .cmd (commandWord i) := by
  cases i with
  | start | stop | write | read | bind => rfl
  | _ => cases h

/-- The decoder reads a uop off its code (R65). -/
theorem decode_encode_of_uop (i : Instr) (h : i.isCommand = false) : decode (encode i) = .ok i := by
  cases i with
  | start | stop | write | read | bind => cases h
  | _ => rfl

/-- An instruction with a uop code is no command, and has no operand to check. -/
theorem uop_of_encode (c : UopCode) (i : Instr) (h : encode i = .uop c) : i.isCommand = false ∧ i.WellFormed := by
  cases i with
  | start | stop | write | read | bind => cases h
  | _ => exact ⟨rfl, rfl⟩

/-- Settles O1: a command is read back from its fields, a uop from its code. -/
theorem decodeEncodeGivesBackEveryInstruction : Obligations.DecodeEncodeGivesBackEveryInstruction := by
  intro i wf
  cases h : i.isCommand with
  | true =>
    rw [encode_of_isCommand i h]
    exact decodeCmd_commandWord i h wf
  | false => exact decode_encode_of_uop i h

/-- Settles O2: the word is built again from the fields that were read, on both levels. -/
theorem encodeDecodeGivesBackEveryWord : Obligations.EncodeDecodeGivesBackEveryWord := by
  intro w i h
  cases w with
  | cmd w =>
    obtain ⟨command, wf, rfl⟩ := command_of_decodeCmd w i h
    exact ⟨wf, encode_of_isCommand i command⟩
  | uop c =>
    have code : encode i = .uop c := encode_of_decodeUop c i h
    obtain ⟨-, wf⟩ := uop_of_encode c i code
    exact ⟨wf, code⟩

end Sys2Proof.Machine
end

section
/-! PROOFS. spec/10_state.md section 1, "written by", and section 7: what each meaning can answer, and from that which
instruction writes which register (R10, R32). -/

namespace Sys2Proof.Machine

/-! ### What a meaning can answer -/

/-- The next states a meaning can answer, one clause for each kind of update (R29, R81 to R131). -/
inductive Answers (s : State) : Instr → State → Prop
  | command (i : Instr) (isCommand : i.isCommand = true)
      (allowed : s.bound = true ∨ opcOf (commandWord i) = Opc.bind) : Answers s i (s.accept (commandWord i))
  | line (i : Instr) (writesOneLine : i ∈ [.sdaHold, .sdaRelease, .sclHold, .sclRelease]) (L : Line) (level : Bool) :
      Answers s i (s.setLine L (!level) level).advance
  | clockHigh : Answers s .sclWait s.advance
  | clockLow : Answers s .sclWait s
  | delayEnds (i : Instr) (isDelay : i = .delayFull ∨ i = .delayHalf) :
      Answers s i { s with dly := 0, dlyRun := false }.advance
  | delayCounts (i : Instr) (n : Nat)
      (isDelay : (i = .delayFull ∧ n = Config.delayFullCycles) ∨ (i = .delayHalf ∧ n = Config.delayHalfCycles))
      (notLast : 1 < s.delayCount n) : Answers s i { s with dly := s.delayCount n - 1, dlyRun := true }
  | sdaPut : Answers s .sdaPut s.sdaPut
  | sdaGet : Answers s .sdaGet s.sdaGet
  | acknowledged : Answers s .ackGet { s with nack := false }.advance
  | notAcknowledged : Answers s .ackGet s.takeNotAcknowledged
  | bindLatch : Answers s .bindLatch s.latchBinding.advance
  | endUop : Answers s .endUop (s.complete true)

theorem answers_of_acceptBound (i : Instr) (isCommand : i.isCommand = true) (s t : State)
    (h : acceptBound (commandWord i) s = .next t) : Answers s i t := by
  obtain ⟨bound, rfl⟩ := (acceptBound_eq_next _ s t).mp h
  exact .command i isCommand (.inl bound)

theorem answers_delayStep (i : Instr) (n : Nat) (s : State)
    (isDelay : (i = .delayFull ∧ n = Config.delayFullCycles) ∨ (i = .delayHalf ∧ n = Config.delayHalfCycles)) :
    Answers s i (s.delayStep n) := by
  obtain ⟨-, e⟩ | ⟨notLast, e⟩ := s.delayStep_cases n
  · rw [e]
    exact .delayEnds i (isDelay.imp And.left And.left)
  · rw [e]
    exact .delayCounts i n isDelay notLast

/-- A meaning answers nothing else. -/
theorem answers_of_exec (i : Instr) (s t : State) (h : exec i s = .next t) : Answers s i t := by
  cases i with
  | start | stop | write | read => exact answers_of_acceptBound _ rfl s t h
  | bind sda scl =>
    by_cases e : sda = scl
    · simp [exec, execBind, e] at h
    · simp only [exec, execBind, if_neg e] at h
      cases h
      exact .command (.bind sda scl) rfl (.inr (opcOf_cmdWord Opc.bind _))
  | sdaHold => cases h; exact .line _ (by decide) .sda false
  | sdaRelease => cases h; exact .line _ (by decide) .sda true
  | sclHold => cases h; exact .line _ (by decide) .scl false
  | sclRelease => cases h; exact .line _ (by decide) .scl true
  | sclWait =>
    cases h
    split
    · exact .clockHigh
    · exact .clockLow
  | delayFull => cases h; exact answers_delayStep _ _ s (.inl ⟨rfl, rfl⟩)
  | delayHalf => cases h; exact answers_delayStep _ _ s (.inr ⟨rfl, rfl⟩)
  | sdaPut => cases (exec_sdaPut s).symm.trans h; exact .sdaPut
  | sdaGet => cases h; exact .sdaGet
  | ackGet =>
    cases h
    split
    · exact .notAcknowledged
    · exact .acknowledged
  | bindLatch => cases h; exact .bindLatch
  | endUop => cases h; exact .endUop

/-- A uop always answers a next state (R87 to R131). -/
theorem exists_exec_uop_eq_next (i : Instr) (s : State) (h : i.isCommand = false) : ∃ t, exec i s = .next t := by
  cases i with
  | start | stop | write | read | bind => cases h
  | _ => exact ⟨_, rfl⟩

/-! ### The writers of each register (R10, R32) -/

@[simp] theorem State.latchBinding_last (s : State) : s.latchBinding.last = s.last := by rw [latchBinding_eq]
@[simp] theorem State.latchBinding_sh (s : State) : s.latchBinding.sh = s.sh := by rw [latchBinding_eq]
@[simp] theorem State.latchBinding_dly (s : State) : s.latchBinding.dly = s.dly := by rw [latchBinding_eq]
@[simp] theorem State.latchBinding_dlyRun (s : State) : s.latchBinding.dlyRun = s.dlyRun := by rw [latchBinding_eq]
@[simp] theorem State.latchBinding_rspValid (s : State) : s.latchBinding.rspValid = s.rspValid := by
  rw [latchBinding_eq]
@[simp] theorem State.latchBinding_rspOk (s : State) : s.latchBinding.rspOk = s.rspOk := by rw [latchBinding_eq]
@[simp] theorem State.latchBinding_rspData (s : State) : s.latchBinding.rspData = s.rspData := by rw [latchBinding_eq]

/-- No command is a uop. -/
theorem ne_of_isCommand {i j : Instr} (hi : i.isCommand = true) (hj : j.isCommand = false) : i ≠ j :=
  fun e => Bool.noConfusion (hi.symm.trans (e ▸ hj))

/-- Only BIND_LATCH writes the binding (R12, R81). -/
theorem Answers.sameBinding {s t : State} {i : Instr} (h : Answers s i t) : SameBinding s t ∨ i = .bindLatch := by
  cases h with
  | bindLatch => exact .inr rfl
  | _ => exact .inl ⟨rfl, rfl, rfl⟩

/-- Settles O29: the registers each kind of update names are those whose column "written by" names it. -/
theorem registersHaveTheirWritersOnly : Obligations.RegistersHaveTheirWritersOnly := by
  intro i s t h
  have answers : Answers s i t := answers_of_exec i s t h
  refine ⟨answers.sameBinding, ?_⟩
  cases answers with
  | command _ isCommand _ =>
    simp [isCommand, ne_of_isCommand isCommand (j := .endUop) rfl, ne_of_isCommand isCommand (j := .delayFull) rfl,
      ne_of_isCommand isCommand (j := .delayHalf) rfl]
  | line _ writesOneLine L level =>
    simp only [List.mem_cons, List.not_mem_nil, or_false] at writesOneLine
    obtain rfl | rfl | rfl | rfl := writesOneLine <;> simp
  | clockHigh | clockLow => simp
  | delayEnds _ isDelay => obtain rfl | rfl := isDelay <;> simp [State.advance]
  | delayCounts _ n isDelay _ => obtain ⟨rfl, -⟩ | ⟨rfl, -⟩ := isDelay <;> simp
  | sdaPut => simp [State.sdaPut]
  | sdaGet => simp [State.sdaGet]
  | acknowledged => simp
  | notAcknowledged => simp [State.takeNotAcknowledged]
  | bindLatch => simp
  | endUop => simp

/-! ### The binding (R11, R12) -/

/-- A meaning leaves a binding that is set (R81). -/
theorem sameBinding_of_exec {s t : State} {i : Instr} (bound : s.bound = true) (h : exec i s = .next t) :
    SameBinding s t := by
  obtain same | rfl := (answers_of_exec i s t h).sameBinding
  · exact same
  · cases (exec_bindLatch_of_bound s bound).symm.trans h
    exact ⟨rfl, rfl, rfl⟩

/-- Settles O35: only BIND_LATCH writes the binding, and it leaves one that is set. -/
theorem bindingIsKeptOnceSet : Obligations.BindingIsKeptOnceSet := by
  intro s t bound noReset h
  obtain ⟨reset, -⟩ | ⟨-, -, -, rfl⟩ | ⟨-, -, -, i, u, -, he, rfl⟩ | ⟨-, -, c, i, u, -, -, he, rfl⟩ :=
    step_cases s t h
  · exact absurd (noReset.symm.trans reset) Bool.false_ne_true
  · exact ⟨rfl, rfl, rfl⟩
  · have same : SameBinding s u := sameBinding_of_exec bound he
    exact same
  · have same : SameBinding s u := sameBinding_of_exec bound he
    exact same

/-! ### The response (R24, R25, R31) -/

/-- A command completed: idle, with a response. -/
def Completed (t : State) : Prop := t.busy = false ∧ t.rspValid = true

/-- `phase` and the response's content are the same. -/
def SameStatus (s t : State) : Prop := t.phase = s.phase ∧ t.rspOk = s.rspOk ∧ t.rspData = s.rspData

/-- A uop completes the command, or leaves it running with the status as it was (R31, R32). -/
theorem Answers.completed_or_sameStatus {s t : State} {i : Instr} (h : Answers s i t) (busy : s.busy = true) :
    Completed t ∨ (t.busy = true ∧ SameStatus s t) := by
  cases h with
  | notAcknowledged | endUop => exact .inl ⟨rfl, rfl⟩
  | command => exact .inr ⟨rfl, rfl, rfl, rfl⟩
  | bindLatch => exact .inr ⟨by simp [busy], by simp [SameStatus]⟩
  | _ => exact .inr ⟨busy, rfl, rfl, rfl⟩

/-- Settles O36: an edge, an accept and a uop that goes on leave the status; END and a failing ACK_GET complete. -/
theorem statusIsWrittenAtCompletionOnly : Obligations.StatusIsWrittenAtCompletionOnly := by
  intro s t h noReset
  have unchanged (same : SameStatus s t) : ¬ (t.phase ≠ s.phase ∨ t.rspOk ≠ s.rspOk ∨ t.rspData ≠ s.rspData) := by
    obtain ⟨phase, ok, data⟩ := same
    simp [phase, ok, data]
  obtain ⟨reset, -⟩ | ⟨-, idle, -, rfl⟩ | ⟨-, idle, -, i, u, hd, he, rfl⟩ | ⟨-, busy, c, i, u, -, -, he, rfl⟩ :=
    step_cases s t h
  · exact absurd (noReset.symm.trans reset) Bool.false_ne_true
  · exact ⟨fun differs => absurd differs (unchanged ⟨rfl, rfl, rfl⟩), fun busy => by simp [idle] at busy⟩
  · obtain rfl := eq_accept_of_exec_command _ i s u hd he
    exact ⟨fun differs => absurd differs (unchanged ⟨rfl, rfl, rfl⟩), fun busy => by simp [idle] at busy⟩
  · obtain ⟨ended, valid⟩ | ⟨runs, same⟩ := (answers_of_exec i s u he).completed_or_sameStatus busy
    · exact ⟨fun _ => ⟨busy, ended⟩, fun _ _ => valid⟩
    · exact ⟨fun differs => absurd differs (unchanged same), fun _ ended => by simp [runs] at ended⟩

end Sys2Proof.Machine
end

section
/-! PROOFS. The engine's invariant (`Inv`: R11 to R13, R17, R21 to R23, R25, R33, R43, R80, R82): it holds at reset, and
every update a step is made of keeps it. -/

namespace Sys2Proof.Machine

/-- Settles O31: the bank is 0. -/
theorem openDrainHoldsAtReset : Obligations.OpenDrainHoldsAtReset :=
  (by decide : State.reset.ddr &&& State.reset.port = 0#8)

/-- Settles O33: an idle, unbound block whose bank is 0. -/
theorem invariantHoldsAtReset : Obligations.InvariantHoldsAtReset where
  openDrain := openDrainHoldsAtReset
  positionsDiffer := nofun
  uopThere := nofun
  bindFirst := nofun
  bindPositions := nofun
  otherPinsZero _ _ := ⟨BitVec.getLsbD_zero, BitVec.getLsbD_zero⟩
  delayIdle _ := rfl
  delayRunning := nofun
  noResponseWhileBusy := nofun
  nackIsAFailedWrite := nofun
  okIsNotNack := nofun

/-! ### What a busy state with the invariant has -/

/-- The two positions of a BIND the decoder reads differ (R62, R64). -/
theorem bindPositions_of_decodeCmd {w : CmdWord} {i : Instr} (decoded : decodeCmd w = .ok i)
    (op : opcOf w = Opc.bind) : sdaField (argOf w) ≠ sclField (argOf w) := by
  obtain ⟨isCommand, wf, rfl⟩ := command_of_decodeCmd w i decoded
  cases i with
  | bind sda scl => simpa [commandWord, encode] using (wellFormed_bind_iff sda scl).mp wf
  | start | stop | write | read => simp [commandWord, encode, Opc.start, Opc.stop, Opc.write, Opc.read, Opc.bind] at op
  | _ => cases isCommand

/-- BIND runs BIND_LATCH and END only (R80). -/
theorem op_ne_bind_of_fetched {s : State} {c : UopCode} (fetched : fetchUop s = some c)
    (other : c ≠ Uop.bindLatch ∧ c ≠ Uop.endUop) : s.op ≠ Opc.bind := by
  intro op
  rw [fetchUop, op] at fetched
  exact (prog_bind_codes s.last s.upc c fetched).elim other.1 other.2

section
variable {s : State} (inv : Inv s)
include inv

theorem Inv.nack_of_busy (busy : s.busy = true) : s.nack = false := by
  by_contra nack
  have idle := (inv.nackIsAFailedWrite (Bool.eq_true_of_not_eq_false nack)).1
  exact absurd (idle.symm.trans busy) Bool.false_ne_true

/-- A delay is in progress at a delay uop only. -/
theorem Inv.noDelay {c : UopCode} (fetched : fetchUop s = some c) (other : c ≠ Uop.delayFull ∧ c ≠ Uop.delayHalf) :
    s.dlyRun = false := by
  by_contra delay
  obtain ⟨-, -, ⟨full, -⟩ | ⟨half, -⟩⟩ := inv.delayRunning (Bool.eq_true_of_not_eq_false delay)
  · exact other.1 (Option.some.inj (fetched.symm.trans full))
  · exact other.2 (Option.some.inj (fetched.symm.trans half))

theorem Inv.noDelay_of_idle (idle : s.busy = false) : s.dlyRun = false := by
  by_contra delay
  have busy := (inv.delayRunning (Bool.eq_true_of_not_eq_false delay)).1
  exact absurd (idle.symm.trans busy) Bool.false_ne_true

/-- Before the binding only BIND runs (R82). -/
theorem Inv.bound_of_fetched {c : UopCode} (busy : s.busy = true) (fetched : fetchUop s = some c)
    (other : c ≠ Uop.bindLatch ∧ c ≠ Uop.endUop) : s.bound = true := by
  by_contra unbound
  exact op_ne_bind_of_fetched fetched other (inv.bindFirst busy (Bool.eq_false_of_not_eq_true unbound))

/-! ### The updates keep the invariant -/

/-- The invariant says nothing of the outside world. -/
theorem Inv.withOutside (ps : List PortIn) (tick : Nat) : Inv { s with inputs := ps, tick := tick } :=
  { inv with }

theorem Inv.edge : Inv s.edge := inv.withOutside s.inputs.tail (s.tick + 1)

theorem Inv.accept {w : CmdWord} {i : Instr} (idle : s.busy = false) (decoded : decodeCmd w = .ok i)
    (allowed : s.bound = true ∨ opcOf w = Opc.bind) : Inv (s.accept w) :=
  { inv with
    uopThere := fun _ => prog_first w i decoded (w.getLsbD 0)
    bindFirst := fun _ unbound => allowed.resolve_left (Bool.eq_false_iff.mp unbound)
    bindPositions := fun _ => bindPositions_of_decodeCmd decoded
    delayRunning := fun delay => absurd ((inv.noDelay_of_idle idle).symm.trans delay) Bool.false_ne_true
    noResponseWhileBusy := fun _ => rfl
    nackIsAFailedWrite := nofun
    okIsNotNack := nofun }

/-- Every uop but END, a delay or a low poll goes on to a next uop (R22). -/
theorem Inv.advance {c : UopCode} (noDelay : s.dlyRun = false) (fetched : fetchUop s = some c)
    (notEnd : c ≠ Uop.endUop) : Inv s.advance :=
  { inv with
    uopThere := fun _ => fetchUop_after_advance s s.advance c fetched notEnd rfl rfl rfl
    delayRunning := fun delay => absurd (noDelay.symm.trans delay) Bool.false_ne_true }

theorem Inv.setLine (bound : s.bound = true) (L : Line) (level : Bool) : Inv (s.setLine L (!level) level) :=
  { inv with
    openDrain := setLine_keeps_open_drain s L (!level) level (Bool.not_and_self level) inv.openDrain
    otherPinsZero := fun b noLine => by
      obtain ⟨notSda, notScl⟩ := noLine bound
      have notL : b ≠ s.bit L := by cases L <;> assumption
      simpa [notL] using inv.otherPinsZero b noLine }

theorem Inv.sh (notBind : s.op ≠ Opc.bind) (v : Byte) : Inv { s with sh := v } :=
  { inv with bindPositions := fun _ op => absurd op notBind }

theorem Inv.delayEnds : Inv { s with dly := 0, dlyRun := false } :=
  { inv with
    delayIdle := fun _ => rfl
    delayRunning := nofun }

/-- A count of at least 2 has one less to go, and is below the delay's length from its first step on (R102). -/
theorem Inv.delayCounts {c : UopCode} {n : Nat} (busy : s.busy = true) (fetched : fetchUop s = some c)
    (delayUop : DelayUop c n) (notLast : 1 < s.delayCount n) :
    Inv { s with dly := s.delayCount n - 1, dlyRun := true } := by
  have count : s.delayCount n ≤ n := by
    rw [delayCount_eq]
    split
    case isTrue first => exact le_rfl
    case isFalse inside =>
      obtain ⟨-, -, short⟩ := inv.delayRunning (Bool.eq_true_of_not_eq_false inside)
      rw [fetched] at short
      obtain ⟨rfl, rfl⟩ | ⟨rfl, rfl⟩ := delayUop
      · obtain ⟨-, short⟩ | ⟨other, -⟩ := short
        · exact short.le
        · exact absurd other (by decide)
      · obtain ⟨other, -⟩ | ⟨-, short⟩ := short
        · exact absurd other (by decide)
        · exact short.le
  refine { inv with delayIdle := nofun, delayRunning := fun _ => ⟨busy, by dsimp only; omega, ?_⟩ }
  obtain ⟨rfl, rfl⟩ | ⟨rfl, rfl⟩ := delayUop
  · exact .inl ⟨fetched, by dsimp only; omega⟩
  · exact .inr ⟨fetched, by dsimp only; omega⟩

theorem Inv.complete (busy : s.busy = true) (noDelay : s.dlyRun = false) : Inv (s.complete true) :=
  { inv with
    uopThere := nofun
    bindFirst := nofun
    bindPositions := nofun
    delayRunning := fun delay => absurd (noDelay.symm.trans delay) Bool.false_ne_true
    noResponseWhileBusy := nofun
    nackIsAFailedWrite := fun nack => ⟨rfl, (inv.nackIsAFailedWrite nack).2⟩
    okIsNotNack := fun _ => by simp [inv.nack_of_busy busy] }

theorem Inv.takeNotAcknowledged (noDelay : s.dlyRun = false) (write : s.op = Opc.write) :
    Inv s.takeNotAcknowledged :=
  { inv with
    uopThere := nofun
    bindFirst := nofun
    bindPositions := nofun
    delayRunning := fun delay => absurd (noDelay.symm.trans delay) Bool.false_ne_true
    noResponseWhileBusy := nofun
    nackIsAFailedWrite := fun _ => ⟨rfl, write⟩
    okIsNotNack := fun _ => rfl }

/-- The positions BIND sets differ, and until then the whole bank was 0 (R80, R81). -/
theorem Inv.latchBinding (busy : s.busy = true) : Inv s.latchBinding := by
  obtain ⟨-, e⟩ | ⟨unbound, e⟩ := s.latchBinding_cases <;> rw [e]
  · exact inv
  · have bankZero (b : BitPos) := inv.otherPinsZero b fun bound => absurd (unbound.symm.trans bound) Bool.false_ne_true
    exact { inv with
      positionsDiffer := fun _ => inv.bindPositions busy (inv.bindFirst busy unbound)
      bindFirst := nofun
      otherPinsZero := fun b _ => bankZero b }

/-! ### Every step keeps the invariant -/

/-- A command's meaning is its acceptance. -/
theorem Inv.exec_command {w : CmdWord} {i : Instr} {t : State} (idle : s.busy = false)
    (decoded : decodeCmd w = .ok i) (h : exec i s = .next t) : Inv t := by
  have isAccept : t = s.accept w := eq_accept_of_exec_command w i s t decoded h
  subst isAccept
  refine inv.accept idle decoded ?_
  rw [Machine.exec_command w i s decoded] at h
  split at h
  case isTrue bind => exact .inr bind
  case isFalse => exact .inl ((acceptBound_eq_next w s _).mp h).1

/-- A uop's meaning is updates that keep the invariant. -/
theorem Inv.exec_uop {c : UopCode} {i : Instr} {t : State} (busy : s.busy = true) (fetched : fetchUop s = some c)
    (decoded : decodeUop c = .ok i) (h : exec i s = .next t) : Inv t := by
  have code : encode i = .uop c := encode_of_decodeUop c i decoded
  cases answers_of_exec i s t h with
  | command _ isCommand _ =>
    rw [encode_of_isCommand i isCommand] at code
    cases code
  | line _ writesOneLine L level =>
    obtain ⟨noDelay, notBind, notEnd⟩ : (c ≠ Uop.delayFull ∧ c ≠ Uop.delayHalf) ∧ c ≠ Uop.bindLatch ∧
        c ≠ Uop.endUop := by
      simp only [List.mem_cons, List.not_mem_nil, or_false] at writesOneLine
      obtain rfl | rfl | rfl | rfl := writesOneLine <;> cases code <;> decide
    exact (inv.setLine (inv.bound_of_fetched busy fetched ⟨notBind, notEnd⟩) L level).advance
      (inv.noDelay fetched noDelay) fetched notEnd
  | clockHigh =>
    cases code
    exact inv.advance (inv.noDelay fetched (by decide)) fetched (by decide)
  | clockLow => exact inv
  | delayEnds _ isDelay =>
    refine inv.delayEnds.advance rfl fetched ?_
    obtain rfl | rfl := isDelay <;> cases code <;> decide
  | delayCounts _ n isDelay notLast =>
    refine inv.delayCounts busy fetched ?_ notLast
    obtain ⟨rfl, rfl⟩ | ⟨rfl, rfl⟩ := isDelay <;> cases code
    · exact .inl ⟨rfl, rfl⟩
    · exact .inr ⟨rfl, rfl⟩
  | sdaPut =>
    cases code
    have notBind : s.op ≠ Opc.bind := op_ne_bind_of_fetched fetched (by decide)
    have written := inv.setLine (inv.bound_of_fetched busy fetched (by decide)) .sda (msb s.sh)
    exact (written.sh notBind (shiftOut s.sh)).advance (inv.noDelay fetched (by decide)) fetched (by decide)
  | sdaGet =>
    cases code
    have notBind : s.op ≠ Opc.bind := op_ne_bind_of_fetched fetched (by decide)
    exact (inv.sh notBind _).advance (inv.noDelay fetched (by decide)) fetched (by decide)
  | acknowledged =>
    cases code
    rw [show { s with nack := false } = s by rw [← inv.nack_of_busy busy]]
    exact inv.advance (inv.noDelay fetched (by decide)) fetched (by decide)
  | notAcknowledged =>
    cases code
    exact inv.takeNotAcknowledged (inv.noDelay fetched (by decide)) ((prog_only _ _).2 (List.mem_of_getElem? fetched))
  | bindLatch =>
    cases code
    have latched : fetchUop s.latchBinding = some Uop.bindLatch := by simpa [fetchUop] using fetched
    refine (inv.latchBinding busy).advance ?_ latched (by decide)
    simpa using inv.noDelay fetched (by decide)
  | endUop =>
    cases code
    exact inv.complete busy (inv.noDelay fetched (by decide))

end

/-- Settles O32: a step is a reset, an edge, an accept or a uop, and each of them keeps the invariant. -/
theorem invariantKeptByEveryStep : Obligations.InvariantKeptByEveryStep := by
  intro s t inv h
  obtain ⟨-, rfl⟩ | ⟨-, -, -, rfl⟩ | ⟨-, idle, -, i, u, decoded, he, rfl⟩ |
    ⟨-, busy, c, i, u, fetched, decoded, he, rfl⟩ := step_cases s t h
  · exact (invariantHoldsAtReset.withOutside s.inputs s.tick).edge
  · exact inv.edge
  · exact (inv.exec_command idle decoded he).edge
  · exact (inv.exec_uop busy fetched decoded he).edge

end Sys2Proof.Machine
end

section
/-! PROOFS. A state that meets the invariant goes on (R22, R51, R65); so a host on the ideal bus that runs well-formed
commands meets no refusal and no fault (spec/46_transactions.md). -/

namespace Sys2Proof.Machine

/-! ### The block never gets stuck -/

/-- A running command has a uop at `upc`, and every uop answers a next state. -/
theorem Inv.exists_step_of_busy {s : State} (inv : Inv s) (noReset : s.portIn.rst = false) (busy : s.busy = true) :
    ∃ t, step s = .next t := by
  obtain ⟨c, fetched⟩ := Option.isSome_iff_exists.mp (inv.uopThere busy)
  obtain ⟨i, decoded⟩ := fetchUop_decodes s c fetched
  obtain ⟨isUop, -⟩ := uop_of_encode c i (encode_of_decodeUop c i decoded)
  obtain ⟨u, answer⟩ := exists_exec_uop_eq_next i s isUop
  exact ⟨u.edge, by rw [step_uop s c i noReset busy fetched decoded, answer]; rfl⟩

theorem step_of_noCommand {s : State} (noReset : s.portIn.rst = false) (idle : s.busy = false)
    (noCommand : s.portIn.cmdValid = false) : step s = .next s.edge := by
  simp [step, noReset, idle, noCommand]

/-- A step goes on but for a command an idle block is presented. -/
theorem Inv.exists_step {s : State} (inv : Inv s)
    (h : s.busy = true ∨ s.portIn.rst = true ∨ s.portIn.cmdValid = false) : ∃ t, step s = .next t := by
  cases reset : s.portIn.rst with
  | true => exact ⟨_, step_reset s reset⟩
  | false =>
    cases busy : s.busy with
    | true => exact inv.exists_step_of_busy reset busy
    | false =>
      have noCommand : s.portIn.cmdValid = false := by simpa [reset, busy] using h
      exact ⟨_, step_of_noCommand reset busy noCommand⟩

/-- The command port makes no fault: a word is accepted or refused (R64, R82). -/
theorem step_presented_ne_fault {s : State} (noReset : s.portIn.rst = false) (idle : s.busy = false)
    (presented : s.portIn.cmdValid = true) (f : Fault) : step s ≠ .fault f := by
  by_cases legal : LegalWord s.portIn.cmd
  · rw [step_legalWord s noReset idle presented legal]
    split <;> exact nofun
  · obtain ⟨why, refused⟩ := step_reservedWord s noReset idle presented legal
    rw [refused]
    exact nofun

/-- Settles O34: a running command has a uop to go on with, and an idle block refuses at worst. -/
theorem invariantStatesNeverGetStuck : Obligations.InvariantStatesNeverGetStuck := by
  refine fun s inv => ⟨fun f => ?noFault, inv.exists_step⟩
  by_cases goesOn : s.busy = true ∨ s.portIn.rst = true ∨ s.portIn.cmdValid = false
  · obtain ⟨t, h⟩ := inv.exists_step goesOn
    rw [h]
    exact nofun
  · simp only [not_or, Bool.not_eq_true, Bool.not_eq_false] at goesOn
    obtain ⟨idle, noReset, presented⟩ := goesOn
    exact step_presented_ne_fault noReset idle presented f

/-! ### A host around the block (R140 to R145, R195) -/

/-- The commands a host has left are commands the decoder reads. -/
def HostProg.Legal (h : HostProg) : Prop := ∀ c ∈ h.todo, c.isCommand = true ∧ c.WellFormed

theorem HostProg.Legal.respond {h : HostProg} (legal : h.Legal) (ok : Bool) (data : Byte) : (h.respond ok data).Legal :=
  fun c hc => legal c (h.mem_respond_todo ok data c hc)

/-- A host resets nothing. -/
theorem HostProg.drive_rst (h : HostProg) (ext : Byte) (s : State) : (h.drive ext s).rst = false := by
  unfold HostProg.drive
  split <;> rfl

/-- A host presents a command to an idle block only, and then a legal word. -/
theorem HostProg.Legal.drive_cmd {h : HostProg} (legal : h.Legal) {ext : Byte} {s : State}
    (presented : (h.drive ext s).cmdValid = true) : s.busy = false ∧ LegalWord (h.drive ext s).cmd := by
  obtain ⟨todo, buf, result⟩ := h
  cases todo with
  | nil => cases presented
  | cons c cs =>
    obtain ⟨isCommand, wf⟩ := legal c List.mem_cons_self
    exact ⟨by simpa [HostProg.drive] using presented, legalWord_commandWord c isCommand wf⟩

/-- What the host presents, the block answers with a next state. -/
theorem exists_step_drive {h : HostProg} {s : State} (ext : Byte) (inv : Inv s) (bound : s.bound = true)
    (legal : h.Legal) : ∃ t, step { s with inputs := [h.drive ext s] } = .next t := by
  have noReset : (h.drive ext s).rst = false := h.drive_rst ext s
  cases presented : (h.drive ext s).cmdValid with
  | false => exact (inv.withOutside [h.drive ext s] s.tick).exists_step (.inr (.inr presented))
  | true =>
    obtain ⟨idle, legalWord⟩ := legal.drive_cmd presented
    exact ⟨_, (step_legalWord { s with inputs := [h.drive ext s] } noReset idle presented legalWord).trans
      (if_pos (.inl bound))⟩

/-- Settles O50: the host presents legal words to an idle block, and the invariant and the binding are kept. -/
theorem transactionsAreNeverRefused : Obligations.TransactionsAreNeverRefused := by
  intro ext h s inv bound legal
  obtain ⟨t, answer⟩ := exists_step_drive ext inv bound legal
  have invAfter : Inv t := invariantKeptByEveryStep _ t (inv.withOutside [h.drive ext s] s.tick) answer
  obtain ⟨boundAfter, -⟩ :=
    bindingIsKeptOnceSet { s with inputs := [h.drive ext s] } t bound (h.drive_rst ext s) answer
  refine ⟨if s.busy && !t.busy then h.respond t.rspOk t.rspData else h, t, ?answers, invAfter,
    boundAfter.trans bound, ?todo⟩
  case answers => rw [hostStep, answer]
  case todo =>
    split
    · exact HostProg.Legal.respond legal t.rspOk t.rspData
    · exact legal

end Sys2Proof.Machine
end

section
/-! PROOFS. spec/10_state.md section 7 (R28, R29, R31), ACK_GET (R122) and a reset in the middle of a command (R172):
what a step and these meanings answer, with every register written out. -/

namespace Sys2Proof.Machine

/-! ### The step (R28) -/

/-- Settles O10: the four cases of R28 exclude each other. -/
theorem stepRunsTheDecodedInstruction : Obligations.StepRunsTheDecodedInstruction :=
  fun s => ⟨step_reset s, step_of_noCommand,
    fun noReset idle presented i decoded => step_command s i noReset idle presented decoded,
    fun noReset busy c i fetched decoded => step_uop s c i noReset busy fetched decoded, fun _ => rfl⟩

/-! ### Accepting each command (R29) -/

/-- What accepting leaves, for a word built of its two fields. -/
theorem accept_cmdWord (o : Opcode) (a : Byte) (s : State) :
    s.accept (cmdWord o a) = { s with
      op := o, sh := a, last := a.getLsbD 0, nack := false, upc := 0#6, busy := true, rspValid := false } := by
  rw [State.accept, opcOf_cmdWord, argOf_cmdWord, cmdWord_getLsbD_zero]

theorem acceptBound_cmdWord_of_bound {s : State} (bound : s.bound = true) (o : Opcode) (a : Byte) :
    acceptBound (cmdWord o a) s = .next { s with
      op := o, sh := a, last := a.getLsbD 0, nack := false, upc := 0#6, busy := true, rspValid := false } :=
  (acceptBound_eq_next _ s _).mpr ⟨bound, (accept_cmdWord o a s).symm⟩

theorem bindArg_getLsbD_zero (sda scl : BitPos) : (bindArg sda scl).getLsbD 0 = sda.getLsbD 0 := by
  simp [bindArg]

/-- Settles O12: the registers accepted are the fields the command's word was built of. -/
theorem everyCommandIsAccepted : Obligations.EveryCommandIsAccepted := by
  refine fun s => ⟨fun bound => ⟨?start, ?stop, fun data => ?write, fun last => ?read⟩, fun sda scl differ => ?bind⟩
  case start => exact acceptBound_cmdWord_of_bound bound Opc.start 0#8
  case stop => exact acceptBound_cmdWord_of_bound bound Opc.stop 0#8
  case write => exact acceptBound_cmdWord_of_bound bound Opc.write data
  case read => cases last <;> exact acceptBound_cmdWord_of_bound bound Opc.read (readArg _)
  case bind =>
    have accepted : exec (.bind sda scl) s = .next (s.accept (cmdWord Opc.bind (bindArg sda scl))) := if_neg differ
    rw [accepted, accept_cmdWord, bindArg_getLsbD_zero]
    rfl

/-! ### Completion and the acknowledgment (R31, R122, R153) -/

/-- `phaseAfter` is R31's table, row by row. -/
theorem phaseWritten_of_phaseAfter {s t : State} (h : t.phase = phaseAfter s.op s.phase) : PhaseWritten s t := by
  refine ⟨?_, ?_, ?_, ?_, ?_⟩ <;> intro op <;> rw [h, op] <;> rfl

/-- A high sample ends the command with failure. -/
theorem exec_ackGet_high {s : State} (high : getBit s.portIn.pin s.sdaBit = true) :
    exec .ackGet s = .next s.takeNotAcknowledged :=
  congrArg Host.Outcome.next (if_pos high)

theorem exec_ackGet_low {s : State} (low : getBit s.portIn.pin s.sdaBit = false) :
    exec .ackGet s = .next { s with nack := false }.advance :=
  congrArg Host.Outcome.next (if_neg (Bool.eq_false_iff.mp low))

/-- What NotAcknowledged leaves in each register (R153). -/
theorem ackGet_notAcknowledged (s : State) (high : getBit s.portIn.pin s.sdaBit = true) :
    ∃ t, exec .ackGet s = .next t ∧ PhaseWritten s t ∧
      t = { s with
        nack := true, busy := false, rspValid := true, rspOk := false, rspData := s.sh, phase := t.phase } :=
  ⟨s.takeNotAcknowledged, exec_ackGet_high high, phaseWritten_of_phaseAfter rfl, rfl⟩

/-- Settles O26: the sample decides between an advance and NotAcknowledged. -/
theorem ackGetSamplesTheAcknowledgment : Obligations.AckGetSamplesTheAcknowledgment :=
  fun s => ⟨fun low => ⟨_, exec_ackGet_low low, upcNext_of_ne s.upc, rfl⟩, ackGet_notAcknowledged s⟩

/-- Settles O28: END and NotAcknowledged complete alike but for `rsp_ok` and `nack`. -/
theorem completionWritesTheResponse : Obligations.CompletionWritesTheResponse :=
  fun s => ⟨⟨s.complete true, rfl, phaseWritten_of_phaseAfter rfl, rfl⟩, ackGet_notAcknowledged s,
    fun op last notWrite inProg => notWrite ((prog_only op last).2 inProg)⟩

/-! ### A reset on the bus (R172) -/

/-- With the clock high on both sides, a data line that rises makes the stop condition. -/
theorem busEvent_stop_of_levels {s t : State} {ext : Byte} (sclBefore : s.level ext .scl = true)
    (sclAfter : t.level ext .scl = true) (sdaBefore : s.level ext .sda = false) (sdaAfter : t.level ext .sda = true) :
    busEvent ext s t = some .stopCondition := by
  simp [busEvent, sclBefore, sclAfter, sdaBefore, sdaAfter]

/-- A bank without outputs pulls no line. -/
theorem level_of_ddr_zero {s : State} {ext : Byte} {L : Line} (ddr : s.ddr = 0#8)
    (free : getBit ext (s.bit L) = false) : s.level ext L = true := by
  have input : getBit s.ddr (s.bit L) = false := ddr ▸ BitVec.getLsbD_zero
  simp [State.level, State.engLow, input, free]

/-- Settles O9: after a reset `DDR` is 0, so a line is as high as the targets leave it. -/
theorem resetReleasesBothLines : Obligations.ResetReleasesBothLines := by
  intro s t reset h
  obtain rfl : s.resetRegs.edge = t := Host.Outcome.next.inj ((step_reset s reset).symm.trans h)
  refine ⟨fun b => BitVec.getLsbD_zero, fun ext sdaFree sclFree sdaHeld sclReleased => ?stop⟩
  case stop =>
    have sclBefore : s.level ext .scl = true := (level_eq_true_iff s ext .scl).mpr ⟨by simp [sclReleased], sclFree⟩
    have sdaBefore : s.level ext .sda = false := level_of_held s ext .sda sdaHeld
    exact busEvent_stop_of_levels sclBefore (level_of_ddr_zero rfl sclFree) sdaBefore (level_of_ddr_zero rfl sdaFree)

end Sys2Proof.Machine
end

section
/-! PROOFS. spec/46_transactions.md: the commands of the two transactions, entry by entry (R141, R142). -/

namespace Sys2Proof.Machine

/-! ### WRITE_TXN (R141) -/

/-- Its first three entries, one WRITE for each byte, and STOP. -/
theorem writeTxn_eq (slave : SlaveAddr) (reg : Byte) (data : List Byte) :
    writeTxn slave reg data =
      [.start, .write (slave.setWidth 8 <<< 1), .write reg] ++ (data.map .write ++ [.stop]) := by
  rw [writeTxn, addrByte_write, List.append_assoc]

/-- Entry `3 + k` is entry `k` of what follows the address and register bytes. -/
theorem writeTxn_getElem? (slave : SlaveAddr) (reg : Byte) (data : List Byte) (k : Nat) :
    (writeTxn slave reg data)[3 + k]? = (data.map Instr.write ++ [.stop])[k]? := by
  rw [writeTxn_eq, List.getElem?_append_right (by simp)]
  simp

/-- Every entry is a legal command: START, WRITE or STOP. -/
theorem legal_of_mem_writeTxn {slave : SlaveAddr} {reg : Byte} {data : List Byte} {c : Instr}
    (hc : c ∈ writeTxn slave reg data) : c.isCommand = true ∧ c.WellFormed := by
  rw [writeTxn_eq] at hc
  simp only [List.mem_append, List.mem_cons, List.mem_map, List.not_mem_nil, or_false] at hc
  obtain (rfl | rfl | rfl) | ⟨b, -, rfl⟩ | rfl := hc <;> exact ⟨rfl, rfl⟩

/-! ### READ_TXN (R142) -/

/-- Its first six entries, the READs, and STOP. -/
theorem readTxn_eq (slave : SlaveAddr) (reg : Byte) (len : Nat) :
    readTxn slave reg len =
      [.start, .write (slave.setWidth 8 <<< 1), .write reg, .stop, .start,
        .write ((slave.setWidth 8 <<< 1) ||| 0x01#8)] ++ (readCommands len ++ [.stop]) := by
  rw [readTxn, writeTxn_eq, addrByte_read, List.append_assoc _ (readCommands len)]
  rfl

theorem legal_of_mem_readTxn {slave : SlaveAddr} {reg : Byte} {len : Nat} {c : Instr}
    (hc : c ∈ readTxn slave reg len) : c.isCommand = true ∧ c.WellFormed := by
  rw [readTxn_eq] at hc
  simp only [List.mem_append, List.mem_cons, List.not_mem_nil, or_false] at hc
  obtain (rfl | rfl | rfl | rfl | rfl | rfl) | read | rfl := hc
  case inr.inl =>
    obtain ⟨last, rfl⟩ := isRead_of_mem_readCommands len c read
    exact ⟨rfl, rfl⟩
  all_goals exact ⟨rfl, rfl⟩

/-- Entry `6 + k` of a read transaction is entry `k` of what follows the address phase. -/
theorem readTxn_getElem? (slave : SlaveAddr) (reg : Byte) (len k : Nat) :
    (readTxn slave reg len)[6 + k]? = (readCommands len ++ [.stop])[k]? := by
  rw [readTxn_eq, List.getElem?_append_right (by simp)]
  simp

/-- The READs of a read transaction stand behind the address phase and before the last STOP. -/
theorem readTxn_read_index {slave : SlaveAddr} {reg : Byte} {len k : Nat} {last : Bool}
    (h : (readTxn slave reg len)[k]? = some (.read last)) : 6 ≤ k ∧ k < 6 + len := by
  by_cases early : k < 6
  · have noRead : ∀ c ∈ ([.start, .write (slave.setWidth 8 <<< 1), .write reg, .stop, .start,
        .write ((slave.setWidth 8 <<< 1) ||| 0x01#8)] : List Instr), isRead c = false := by simp [isRead]
    rw [readTxn_eq, List.getElem?_append_left (by simpa using early)] at h
    exact absurd (noRead _ (List.mem_of_getElem? h)) (by simp [isRead])
  · obtain ⟨j, rfl⟩ : ∃ j, k = 6 + j := ⟨k - 6, by omega⟩
    refine ⟨by omega, ?_⟩
    rw [readTxn_getElem?] at h
    by_contra late
    rw [List.getElem?_append_right (by simp; omega), readCommands_length] at h
    exact absurd (List.mem_of_getElem? h) (by simp)

/-- Settles O48: both lists are a fixed beginning, a WRITE or READ for each byte, and STOP. -/
theorem transactionCommands : Obligations.TransactionCommands := by
  refine ⟨fun slave reg data => ?writeTxn, fun slave reg len => ?readTxn⟩
  case writeTxn =>
    refine ⟨by simp [writeTxn_eq], rfl, ?_, rfl, fun j b hj => ?_, ?_, fun c => legal_of_mem_writeTxn⟩
    · rw [writeTxn_eq]; rfl
    · rw [writeTxn_getElem?, List.getElem?_append_left (by simpa using (List.getElem?_eq_some_iff.mp hj).1),
        List.getElem?_map, hj]
      rfl
    · rw [Nat.add_comm, writeTxn_getElem?]
      simp
  case readTxn =>
    refine ⟨by simp [readTxn_eq], rfl, by rw [readTxn_eq]; rfl, rfl, rfl, rfl, by rw [readTxn_eq]; rfl,
      fun j hj => ?_, ?_, fun k last => readTxn_read_index, fun c => legal_of_mem_readTxn⟩
    · rw [readTxn_getElem?, List.getElem?_append_left (by simpa using hj), readCommands_getElem? len j hj]
    · rw [Nat.add_comm, readTxn_getElem?]
      simp

end Sys2Proof.Machine
end

section
/-! PROOFS. spec/43_start_stop.md on the ideal bus (R53): the conditions START and STOP make from each boundary state
(R111, R113). -/

namespace Sys2Proof.Machine

/-! ### The lines of a boundary state (R111) -/

/-- The line states of the data line and the clock line. -/
def Boundary.lines : Boundary → LineState × LineState
  | .b0 => (.released0, .released0)
  | .br => (.released, .released)
  | .bh => (.held, .held)
  | .bm => (.released, .held)

theorem lines_of_boundary {s : State} {b : Boundary} (h : s.boundary = some b) :
    s.lineState .sda = b.lines.1 ∧ s.lineState .scl = b.lines.2 := by
  unfold State.boundary at h
  split at h <;> cases h <;> exact ⟨‹_›, ‹_›⟩

/-! ### One uop on the bus -/

section
variable (s : State) (ext : Byte)

/-- A line is as high as the targets leave it, unless the engine holds it. -/
theorem level_of_ne_held (L : Line) (h : s.lineState L ≠ .held) : s.level ext L = !getBit ext (s.bit L) := by
  rw [Bool.eq_iff_iff, level_eq_true_iff]
  simp [h]

theorem level_release (L : Line) : (s.setLine L false true).level ext L = !getBit ext (s.bit L) :=
  level_of_ne_held (s.setLine L false true) ext L (by simp [lineState_setLine, pairState])

theorem level_hold (L : Line) : (s.setLine L true false).level ext L = false :=
  level_of_held (s.setLine L true false) ext L (lineState_setLine s L true false)

variable {s ext} {t : State}

/-- A condition is an edge of the data line. -/
theorem busEvent_of_sda_same (h : t.level ext .sda = s.level ext .sda) : busEvent ext s t = none := by
  unfold busEvent
  rw [h]
  cases s.level ext .sda <;> simp

/-- A condition needs the clock high. -/
theorem busEvent_of_scl_low (h : s.level ext .scl = false) : busEvent ext s t = none := by
  simp [busEvent, h]

theorem busEvent_self : busEvent ext s s = none := busEvent_of_sda_same rfl

/-- A write of the clock line makes no condition: the data line stays. -/
theorem busEvent_setLine_scl (differ : s.sdaBit ≠ s.sclBit) (dir level : Bool) :
    busEvent ext s (s.setLine .scl dir level).advance = none :=
  busEvent_of_sda_same (level_setLine_of_ne s ext .scl .sda dir level differ)

/-- A hold of the data line with the clock high makes the start condition if the line was high, else none. -/
theorem busEvent_hold_sda_of_scl_high (differ : s.sdaBit ≠ s.sclBit) (sclHigh : s.level ext .scl = true) :
    busEvent ext s (s.setLine .sda true false).advance =
      if s.level ext .sda then some .startCondition else none := by
  split
  case isTrue high => exact busEvent_hold_sda s ext differ sclHigh high
  case isFalse low =>
    exact busEvent_of_sda_same ((level_hold s ext .sda).trans (Bool.eq_false_of_not_eq_true low).symm)

/-! ### The conditions of a list of uops, by its first one -/

variable (cs : List UopCode)

theorem busEvents_sdaHold :
    busEvents ext (Uop.sdaHold :: cs) s =
      (busEvent ext s (s.setLine .sda true false).advance).toList ++
        busEvents ext cs (s.setLine .sda true false).advance := rfl

theorem busEvents_sdaRelease :
    busEvents ext (Uop.sdaRelease :: cs) s =
      (busEvent ext s (s.setLine .sda false true).advance).toList ++
        busEvents ext cs (s.setLine .sda false true).advance := rfl

/-- A uop that makes no condition has no part in the list. -/
theorem busEvents_cons_of_none {c : UopCode} (effect : lineEffect c s = t) (none : busEvent ext s t = none) :
    busEvents ext (c :: cs) s = busEvents ext cs t := by
  rw [busEvents, effect, none, Option.toList_none, List.nil_append]

theorem busEvents_sclHold (differ : s.sdaBit ≠ s.sclBit) :
    busEvents ext (Uop.sclHold :: cs) s = busEvents ext cs (s.setLine .scl true false).advance :=
  busEvents_cons_of_none cs rfl (busEvent_setLine_scl differ true false)

theorem busEvents_sclRelease (differ : s.sdaBit ≠ s.sclBit) :
    busEvents ext (Uop.sclRelease :: cs) s = busEvents ext cs (s.setLine .scl false true).advance :=
  busEvents_cons_of_none cs rfl (busEvent_setLine_scl differ false true)

theorem busEvents_sclWait : busEvents ext (Uop.sclWait :: cs) s = busEvents ext cs s :=
  busEvents_cons_of_none cs rfl busEvent_self

theorem busEvents_delayFull : busEvents ext (Uop.delayFull :: cs) s = busEvents ext cs s :=
  busEvents_cons_of_none cs rfl busEvent_self

theorem busEvents_endUop : busEvents ext [Uop.endUop] s = [] := busEvents_cons_of_none [] rfl busEvent_self

/-! ### START and STOP -/

/-- Both lines as START has them once the clock is released: high where no target pulls. -/
theorem levels_after_releases (differ : s.sdaBit ≠ s.sclBit) :
    ((s.setLine .sda false true).advance.setLine .scl false true).advance.level ext .sda = !getBit ext s.sdaBit ∧
    ((s.setLine .sda false true).advance.setLine .scl false true).advance.level ext .scl = !getBit ext s.sclBit :=
  ⟨(level_setLine_of_ne (s.setLine .sda false true).advance ext .scl .sda false true differ).trans
      (level_release s ext .sda), level_release (s.setLine .sda false true).advance ext .scl⟩

/-- START where its first uop makes no condition: the clock is low, or the data line stays as high as the targets leave
it. Then the hold of the data line with the clock high makes the only one. -/
theorem busEvents_progStart (differ : s.sdaBit ≠ s.sclBit) (sclFree : getBit ext s.sclBit = false)
    (quiet : s.level ext .scl = false ∨ s.level ext .sda = !getBit ext s.sdaBit) :
    busEvents ext progStart s = if getBit ext s.sdaBit then [] else [.startCondition] := by
  have release : busEvent ext s (s.setLine .sda false true).advance = none := by
    obtain low | high := quiet
    · exact busEvent_of_scl_low low
    · exact busEvent_of_sda_same ((level_release s ext .sda).trans high.symm)
  obtain ⟨sdaLevel, sclLevel⟩ := levels_after_releases (ext := ext) differ
  rw [sclFree] at sclLevel
  rw [progStart, busEvents_sdaRelease, release, busEvents_sclRelease _ (by exact differ), busEvents_sclWait,
    busEvents_delayFull, busEvents_sdaHold, busEvent_hold_sda_of_scl_high (by exact differ) sclLevel, sdaLevel,
    busEvents_delayFull, busEvents_sclHold _ (by exact differ), busEvents_endUop]
  cases getBit ext s.sdaBit <;> rfl

/-- STOP, after the condition its first uop makes, if any: the release of the HELD data line with the clock high. -/
theorem busEvents_progStop (differ : s.sdaBit ≠ s.sclBit) (sclFree : getBit ext s.sclBit = false)
    (sdaFree : getBit ext s.sdaBit = false) :
    busEvents ext progStop s = (busEvent ext s (s.setLine .sda true false).advance).toList ++ [.stopCondition] := by
  have sclHigh : ((s.setLine .sda true false).advance.setLine .scl false true).advance.level ext .scl = true :=
    (level_release (s.setLine .sda true false).advance ext .scl).trans (congrArg (!·) sclFree)
  have sdaHeld : ((s.setLine .sda true false).advance.setLine .scl false true).advance.lineState .sda = .held := by
    simp [lineState_eq_pairState, pairState, State.bit, differ]
  rw [progStop, busEvents_sdaHold, busEvents_sclRelease _ (by exact differ), busEvents_sclWait, busEvents_delayFull,
    busEvents_sdaRelease, busEvent_release_sda _ ext (by exact differ) sclHigh sdaHeld sdaFree, busEvents_endUop]
  rfl

end

/-- Settles O45: the data line's release before the clock's makes no condition from any boundary state (decision D8). -/
theorem startOnTheIdealBus : Obligations.StartOnTheIdealBus := by
  intro s ext last differ sclFree
  change (_ → _ → busEvents ext progStart s = _) ∧ (_ → busEvents ext progStart s = _)
  refine ⟨fun boundary sdaFree => ?sdaFree, fun bm => ?bm⟩
  case bm =>
    obtain ⟨-, scl⟩ := lines_of_boundary bm
    exact busEvents_progStart differ sclFree (.inl (level_of_held s ext .scl scl))
  case sdaFree =>
    have quiet : s.level ext .scl = false ∨ s.level ext .sda = !getBit ext s.sdaBit := by
      obtain b | b | b := boundary <;> obtain ⟨sda, scl⟩ := lines_of_boundary b
      · exact .inr (level_of_ne_held s ext .sda (by simp [sda, Boundary.lines]))
      · exact .inr (level_of_ne_held s ext .sda (by simp [sda, Boundary.lines]))
      · exact .inl (level_of_held s ext .scl scl)
    rw [busEvents_progStart differ sclFree quiet, sdaFree]
    rfl

/-- Settles O46: the hold of the data line is a start condition exactly where the clock is released already. -/
theorem stopOnTheIdealBus : Obligations.StopOnTheIdealBus := by
  intro s ext last differ sclFree sdaFree
  change (_ → busEvents ext progStop s = _) ∧ (_ → busEvents ext progStop s = _)
  rw [busEvents_progStop differ sclFree sdaFree]
  refine ⟨fun boundary => ?clockHeld, fun boundary => ?clockReleased⟩
  case clockHeld =>
    have scl : s.lineState .scl = .held := by
      obtain b | b := boundary <;> exact (lines_of_boundary b).2
    rw [busEvent_of_scl_low (level_of_held s ext .scl scl)]
    rfl
  case clockReleased =>
    obtain ⟨sda, scl⟩ : s.lineState .sda ≠ .held ∧ s.lineState .scl ≠ .held := by
      obtain b | b := boundary <;> simp [lines_of_boundary b, Boundary.lines]
    have sdaHigh : s.level ext .sda = true := (level_eq_true_iff s ext .sda).mpr ⟨sda, sdaFree⟩
    have sclHigh : s.level ext .scl = true := (level_eq_true_iff s ext .scl).mpr ⟨scl, sclFree⟩
    rw [busEvent_hold_sda_of_scl_high differ sclHigh, if_pos sdaHigh]
    rfl

end Sys2Proof.Machine
end

section
/-! PROOFS. The parts WRITE and READ are made of, for every length of the delays and every stretching of the clock: the
accept, a wait and the full delay behind it, one clock pulse (TOGGLE, R105), a failing ACK_GET; and the step numbers at
which their bits begin (R192). -/

namespace Sys2Proof.Machine

/-! ### Where a bit begins (R192) -/

/-- The step at which bit `i` begins: the bits before it take `period` steps each and one more for each low poll. -/
def bitStart (first period : Nat) (d : Nat → Nat) (i : Nat) : Nat := first + i * period + waited d i

theorem bitStart_zero (first period : Nat) (d : Nat → Nat) : bitStart first period d 0 = first := by
  simp [bitStart, waited]

theorem bitStart_succ (first period : Nat) (d : Nat → Nat) (i : Nat) :
    bitStart first period d (i + 1) = bitStart first period d i + period + d i := by
  simp only [bitStart, waited, Nat.succ_mul]
  omega

theorem bitStart_mono (first period : Nat) (d : Nat → Nat) : Monotone (bitStart first period d) :=
  monotone_nat_of_le_succ fun i => by
    rw [bitStart_succ]
    omega

theorem NoReset.mono {s : State} {m n : Nat} (h : NoReset s n) (hmn : m ≤ n) : NoReset s m :=
  fun k hk => h k (hk.trans_le hmn)

/-! ### The lines at a step -/

/-- After `k` steps from `s` the two lines are in these states (R16). -/
def LinesAt (s : State) (k : Nat) (sda scl : LineState) : Prop :=
  ∃ v, runSteps k s = .next v ∧ v.lineState .sda = sda ∧ v.lineState .scl = scl

/-- The same at a step number spelt otherwise. -/
theorem LinesAt.at {s : State} {k n : Nat} {sda scl : LineState} (h : LinesAt s k sda scl) (hn : n = k) :
    LinesAt s n sda scl := hn ▸ h

/-- The same with the clock named first. -/
theorem LinesAt.sclFirst {s : State} {k n : Nat} {sda scl : LineState} (h : LinesAt s k sda scl) (hn : n = k) :
    ∃ v, runSteps n s = .next v ∧ v.lineState .scl = scl ∧ v.lineState .sda = sda := by
  obtain ⟨v, run, sdaState, sclState⟩ := h.at hn
  exact ⟨v, run, sclState, sdaState⟩

theorem LinesAt.br {s : State} {k n : Nat} (h : LinesAt s k .released .released) (hn : n = k) :
    ∃ v, runSteps n s = .next v ∧ v.boundary = some .br := by
  obtain ⟨v, run, lines⟩ := h.at hn
  exact ⟨v, run, boundary_br_of_lines lines⟩

/-- A data line driven by a bit: RELEASED for 1, HELD for 0 (R121). -/
theorem pairState_not_self (b : Bool) : pairState (!b, b) = if b then .released else .held := by
  cases b <;> rfl

/-- A uop of a part of a micro-program, by its place in that part. -/
theorem getElem?_of_take_drop {l part : List UopCode} {u : Nat} (h : (l.drop u).take part.length = part) {j : Nat}
    {c : UopCode} (hc : part[j]? = some c) : l[u + j]? = some c := by
  have hj : j < part.length := (List.getElem?_eq_some_iff.mp hc).1
  rw [← h, List.getElem?_take_of_lt hj, List.getElem?_drop] at hc
  exact hc

section
variable {s : State} {op : Opcode} {last : Bool} {k u : Nat} {sh : Byte} {sda scl : Bool × Bool} {t : State}

theorem Running.lines_at {d : Option Nat} (h : Running s op last k u d sh sda scl t) :
    LinesAt s k (pairState sda) (pairState scl) :=
  ⟨t, h.run, h.lines⟩

/-! ### The accept (R29) -/

/-- With the binding made, a command presented to the idle block is in flight after one step. -/
theorem Running.acceptedOfBound {o : Opcode} {a : Byte} {i : Instr} (bound : s.bound = true) (notBind : o ≠ Opc.bind)
    (decoded : decodeCmd (cmdWord o a) = .ok i) (presented : Presented (cmdWord o a) s)
    (noReset : (s.portInAt 0).rst = false) :
    ∃ t, Running s o (a.getLsbD 0) 1 0 none a (getBit s.ddr s.sdaBit, getBit s.port s.sdaBit)
      (getBit s.ddr s.sclBit, getBit s.port s.sclBit) t := by
  have accepts : exec i s = .next (s.accept (cmdWord o a)) := by
    rw [exec_command _ i s decoded, opcOf_cmdWord, if_neg notBind]
    exact (acceptBound_eq_next _ s _).mpr ⟨bound, rfl⟩
  have accepted := Running.accepted presented noReset decoded accepts
  rwa [opcOf_cmdWord, cmdWord_getLsbD_zero, argOf_cmdWord] at accepted

/-! ### A wait and the full delay behind it (R91, R100) -/

/-- The lines stay over every poll of a wait and every step of the full delay that follows it. -/
theorem Running.waitDelay (n : Nat) (h : Running s op last k u none sh sda scl t) (hu : u < 58)
    (wait : (prog op last)[u]? = some Uop.sclWait) (delay : (prog op last)[u + 1]? = some Uop.delayFull)
    (noReset : ∀ j < Config.delayFullCycles + 1 + n, (s.portInAt (k + j)).rst = false)
    (answered : WaitAnswered s k n) :
    (∀ j ≤ Config.delayFullCycles + 1 + n, LinesAt s (k + j) (pairState sda) (pairState scl)) ∧
    ∃ t', Running s op last (k + (Config.delayFullCycles + 1 + n)) (u + 2) none sh sda scl t' := by
  have full : DelayUop Uop.delayFull Config.delayFullCycles := .inl ⟨rfl, rfl⟩
  obtain ⟨_, high⟩ := h.wait n (by omega) (fun j hj => noReset j (by omega)) wait answered
  have noResetDelay (j : Nat) (hj : j < Config.delayFullCycles) : (s.portInAt (k + n + 1 + j)).rst = false := by
    rw [Nat.add_assoc k, Nat.add_assoc k]
    exact noReset _ (by omega)
  refine ⟨fun j hj => ?lines, ?ended⟩
  case lines =>
    by_cases polling : j ≤ n
    · obtain ⟨_, low⟩ := h.waiting j (fun i hi => noReset i (by omega)) wait fun i hi => answered.1 i (by omega)
      exact low.lines_at
    · obtain ⟨i, rfl⟩ : ∃ i, j = n + 1 + i := ⟨j - (n + 1), by omega⟩
      have delaying := high.delayLines full (by omega) noResetDelay delay i (by omega)
      rwa [Nat.add_assoc k, Nat.add_assoc k] at delaying
  case ended =>
    obtain ⟨t', ended⟩ := high.delayed full (by omega) noResetDelay delay
    exact ⟨t', by rwa [show k + (Config.delayFullCycles + 1 + n) = k + n + 1 + Config.delayFullCycles by omega]⟩

/-! ### One clock pulse (R105) -/

/-- Through a TOGGLE the data line stays; the clock is RELEASED from its release over every poll to the end of the full
high delay, then HELD to the end of the full low delay. -/
theorem Running.clockPulse (n : Nat) (h : Running s op last k u none sh sda scl t) (hu : u < 55)
    (differ : s.sdaBit ≠ s.sclBit) (uops : ((prog op last).drop u).take 5 = toggle)
    (noReset : NoReset s (k + 3 + n + 2 * Config.delayFullCycles)) (answered : WaitAnswered s (k + 1) n) :
    (∀ j ≤ Config.delayFullCycles + 1 + n, LinesAt s (k + 1 + j) (pairState sda) .released) ∧
    (∀ j ≤ Config.delayFullCycles, LinesAt s (k + 3 + n + Config.delayFullCycles + j) (pairState sda) .held) ∧
    ∃ t', Running s op last (k + 3 + n + 2 * Config.delayFullCycles) (u + 5) none sh sda (true, false) t' := by
  have full : DelayUop Uop.delayFull Config.delayFullCycles := .inl ⟨rfl, rfl⟩
  have uop {j : Nat} {c : UopCode} (hc : toggle[j]? = some c) : (prog op last)[u + j]? = some c :=
    getElem?_of_take_drop (part := toggle) uops hc
  obtain ⟨_, released⟩ := h.sclRelease (by omega) differ (noReset k (by omega)) (uop (j := 0) rfl)
  obtain ⟨high, _, highEnded⟩ := released.waitDelay n (by omega) (uop (j := 1) rfl) (uop (j := 2) rfl)
    (fun j hj => noReset _ (by omega)) answered
  obtain ⟨_, held⟩ := highEnded.sclHold (by omega) differ (noReset _ (by omega)) (uop (j := 3) rfl)
  have step : k + 1 + (Config.delayFullCycles + 1 + n) + 1 = k + 3 + n + Config.delayFullCycles := by omega
  rw [step] at held
  have noResetLow (j : Nat) (hj : j < Config.delayFullCycles) :=
    noReset (k + 3 + n + Config.delayFullCycles + j) (by omega)
  refine ⟨high, fun j hj => held.delayLines full (by omega) noResetLow (uop (j := 4) rfl) j hj, ?ended⟩
  case ended =>
    obtain ⟨t', ended⟩ := held.delayed full (by omega) noResetLow (uop (j := 4) rfl)
    exact ⟨t', by rwa [Nat.two_mul, ← Nat.add_assoc]⟩

/-! ### A failing ACK_GET (R122, R153) -/

/-- A high sample ends the command with failure; the lines stay. -/
theorem Running.ackHigh (h : Running s op last k u none sh sda scl t) (noReset : (s.portInAt k).rst = false)
    (ackGet : (prog op last)[u]? = some Uop.ackGet) (high : s.pinAt .sda k = true) :
    ∃ t', runSteps (k + 1) s = .next t' ∧ t'.busy = false ∧ t'.rspValid = true ∧ t'.rspOk = false ∧
      t'.nack = true ∧ t'.sh = sh ∧ t'.phase = phaseAfter op t.phase ∧ SameBinding s t' ∧ OtherPinsSame s t' ∧
      t'.lineState .sda = pairState sda ∧ t'.lineState .scl = pairState scl := by
  obtain ⟨run, -⟩ := h.step noReset ackGet (i := .ackGet) rfl (exec_ackGet_high ((h.envPin .sda).trans high))
  exact ⟨_, run, rfl, rfl, rfl, rfl, h.sh, by rw [← h.op]; rfl, h.binding, h.others,
    lineState_of_pairs (t := t.takeNotAcknowledged.edge) h.binding h.sda h.scl⟩

end

end Sys2Proof.Machine
end

section
/-! PROOFS. spec/44_write_byte.md: a whole WRITE (R120, R123), for every length of the delays and every stretching of
the clock. -/

namespace Sys2Proof.Machine

/-- The step at which bit `i` of a WRITE begins: an accept, then SDA_PUT and a TOGGLE for each bit (R120). -/
abbrev writeBitStart (d : Nat → Nat) (i : Nat) : Nat := bitStart 1 (4 + 2 * Config.delayFullCycles) d i

section
variable {s : State} {last : Bool} {k i : Nat} {sh data : Byte} {sda scl : Bool × Bool} {t : State} {d : Nat → Nat}

/-! ### One bit -/

/-- The uops of bit `i` (R120). -/
theorem prog_writeBit (last : Bool) (hi : i < 8) :
    ((prog Opc.write last).drop (6 * i)).take 6 = Uop.sdaPut :: toggle := by
  obtain ⟨-, -, write, -⟩ := microProgramTable
  obtain ⟨-, bits, -⟩ := write last
  exact bits i hi

/-- One bit of a WRITE: `sh[7]` on the data line through a whole clock pulse, `sh` shifted (R120, R121). -/
theorem Running.writeBit (n : Nat) (h : Running s Opc.write last k (6 * i) none sh sda scl t) (hi : i < 8)
    (differ : s.sdaBit ≠ s.sclBit) (noReset : NoReset s (k + (4 + 2 * Config.delayFullCycles) + n))
    (answered : WaitAnswered s (k + 2) n) :
    LinesAt s (k + 1) (if msb sh then .released else .held) (pairState scl) ∧
    (∀ j ≤ Config.delayFullCycles + 1 + n,
      LinesAt s (k + 2 + j) (if msb sh then .released else .held) .released) ∧
    (∀ j ≤ Config.delayFullCycles,
      LinesAt s (k + 4 + n + Config.delayFullCycles + j) (if msb sh then .released else .held) .held) ∧
    ∃ t', Running s Opc.write last (k + (4 + 2 * Config.delayFullCycles) + n) (6 * (i + 1)) none (shiftOut sh)
      (!msb sh, msb sh) (true, false) t' := by
  have uops := prog_writeBit last hi
  have toggles : ((prog Opc.write last).drop (6 * i + 1)).take 5 = toggle := by
    have rest := congrArg (List.drop 1) uops
    rwa [List.drop_take, List.drop_drop] at rest
  obtain ⟨_, put⟩ := h.sdaPut (by omega) differ (noReset k (by omega))
    (getElem?_of_take_drop (part := Uop.sdaPut :: toggle) uops (j := 0) rfl)
  obtain ⟨high, low, t', ended⟩ := put.clockPulse n (by omega) differ toggles (noReset.mono (by omega)) answered
  rw [pairState_not_self] at high low
  refine ⟨pairState_not_self _ ▸ put.lines_at, high, fun j hj => ?_, t', ?_⟩
  · rw [show k + 4 + n + Config.delayFullCycles + j = k + 1 + 3 + n + Config.delayFullCycles + j by omega]
    exact low j hj
  · rwa [show k + (4 + 2 * Config.delayFullCycles) + n = k + 1 + 3 + n + 2 * Config.delayFullCycles by omega]

/-! ### The eight bits -/

/-- Where bit `i` begins `i` bits have been sent, and the clock is HELD but before the first one. -/
theorem Running.writeBits (h : Running s Opc.write last 1 0 none data sda scl t) (differ : s.sdaBit ≠ s.sclBit)
    (hi : i ≤ 8) (noReset : NoReset s (writeBitStart d i))
    (answered : ∀ j < i, WaitAnswered s (writeBitStart d j + 2) (d j)) :
    ∃ sda' t', Running s Opc.write last (writeBitStart d i) (6 * i) none (data <<< i) sda'
      (if i = 0 then scl else (true, false)) t' := by
  induction i with
  | zero =>
    rw [writeBitStart, bitStart_zero, BitVec.shiftLeft_zero]
    exact ⟨sda, t, h⟩
  | succ i ih =>
    have before : writeBitStart d i ≤ writeBitStart d (i + 1) := bitStart_mono _ _ d i.le_succ
    obtain ⟨_, _, bit⟩ := ih (by omega) (noReset.mono before) fun j hj => answered j (by omega)
    rw [writeBitStart, bitStart_succ] at noReset
    obtain ⟨-, -, -, t', next⟩ := bit.writeBit (d i) hi differ noReset (answered i i.lt_succ_self)
    rw [shiftOut, ← BitVec.shiftLeft_add] at next
    rw [writeBitStart, bitStart_succ]
    exact ⟨_, t', next⟩

/-- A WRITE accepted. -/
theorem Running.writeAccepted (bound : s.bound = true) (presented : Presented (0x300#12 ||| data.setWidth 12) s)
    (noReset : (s.portInAt 0).rst = false) :
    ∃ t, Running s Opc.write (data.getLsbD 0) 1 0 none data (getBit s.ddr s.sdaBit, getBit s.port s.sdaBit)
      (getBit s.ddr s.sclBit, getBit s.port s.sclBit) t :=
  Running.acceptedOfBound bound (by decide) (decodeCmd_commandWord (.write data) rfl rfl) presented noReset

theorem writeBitStart_eight (d : Nat → Nat) :
    writeBitStart d 8 = 33 + 16 * Config.delayFullCycles + waited d 8 := by
  rw [writeBitStart, bitStart]
  omega

/-- The wait of bit `i`, its edge spelt as the statements spell it. -/
theorem waitAnswered_writeBit
    (h : WaitAnswered s (3 + i * (4 + 2 * Config.delayFullCycles) + waited d i) (d i)) :
    WaitAnswered s (writeBitStart d i + 2) (d i) := by
  rwa [show writeBitStart d i + 2 = 3 + i * (4 + 2 * Config.delayFullCycles) + waited d i by
    rw [writeBitStart, bitStart]; omega]

/-- Settles O40: bit `i` begins with `sh` shifted `i` times, so it sends bit `7 - i`, through one whole clock pulse. -/
theorem writeShowsTheByteMsbFirst : Obligations.WriteShowsTheByteMsbFirst := by
  rintro s data _ d rfl ⟨bound, differ⟩ presented noReset waits i hi
  rw [← writeBitStart_eight] at noReset
  have noResetTo {j : Nat} (hj : j ≤ 8) : NoReset s (writeBitStart d j) := noReset.mono (bitStart_mono _ _ d hj)
  have start : writeBitStart d i = 1 + i * (4 + 2 * Config.delayFullCycles) + waited d i := rfl
  have nextStart := bitStart_succ 1 (4 + 2 * Config.delayFullCycles) d i
  obtain ⟨_, accepted⟩ := Running.writeAccepted bound presented (noReset 0 (by rw [writeBitStart_eight]; omega))
  obtain ⟨_, _, bit⟩ := accepted.writeBits differ hi.le (noResetTo hi.le) fun j hj =>
    waitAnswered_writeBit (waits j (by omega))
  obtain ⟨put, high, low, -⟩ := bit.writeBit (d i) hi differ (nextStart ▸ noResetTo hi)
    (waitAnswered_writeBit (waits i hi))
  rw [msb_shiftLeft data i hi] at put high low
  rw [apply_ite pairState] at put
  refine ⟨put.sclFirst (by omega), fun j hj => (high j (by omega)).sclFirst (by omega),
    fun j hj => (low j hj).sclFirst ?_⟩
  rw [waited]
  omega

/-! ### The ninth pulse (R120, decisions D9, D10) -/

/-- Behind the eight bits the data line is released first, then the clock, and both stay RELEASED to the sample. -/
theorem Running.writeAckPulse (bound : s.bound = true) (differ : s.sdaBit ≠ s.sclBit)
    (presented : Presented (0x300#12 ||| data.setWidth 12) s)
    (noReset : NoReset s (36 + 17 * Config.delayFullCycles + waited d 9))
    (waits : ∀ i < 9, WaitAnswered s (3 + i * (4 + 2 * Config.delayFullCycles) + waited d i) (d i)) :
    LinesAt s (34 + 16 * Config.delayFullCycles + waited d 8) .released .held ∧
    (∀ j ≤ Config.delayFullCycles + 1 + d 8,
      LinesAt s (35 + 16 * Config.delayFullCycles + waited d 8 + j) .released .released) ∧
    ∃ t, Running s Opc.write (data.getLsbD 0) (36 + 17 * Config.delayFullCycles + waited d 9) 52 none 0#8
      (false, true) (false, true) t := by
  have polls : waited d 9 = waited d 8 + d 8 := rfl
  have start : writeBitStart d 8 = 33 + 16 * Config.delayFullCycles + waited d 8 := writeBitStart_eight d
  obtain ⟨_, accepted⟩ := Running.writeAccepted bound presented (noReset 0 (by omega))
  obtain ⟨_, _, sent⟩ := accepted.writeBits differ le_rfl (noReset.mono (by omega)) fun j hj =>
    waitAnswered_writeBit (waits j (by omega))
  rw [BitVec.shiftLeft_eq_zero (le_refl 8), start] at sent
  obtain ⟨_, sdaReleased⟩ := sent.sdaRelease (by decide) differ (noReset _ (by omega)) rfl
  obtain ⟨_, sclReleased⟩ := sdaReleased.sclRelease (by decide) differ (noReset _ (by omega)) rfl
  have answered := waits 8 (by decide)
  rw [show 3 + 8 * (4 + 2 * Config.delayFullCycles) + waited d 8 =
    33 + 16 * Config.delayFullCycles + waited d 8 + 1 + 1 by omega] at answered
  obtain ⟨lines, t, sampled⟩ :=
    sclReleased.waitDelay (d 8) (by decide) rfl rfl (fun j hj => noReset _ (by omega)) answered
  refine ⟨sdaReleased.lines_at.at (by omega), fun j hj => (lines j hj).at (by omega), t, ?_⟩
  rwa [show 36 + 17 * Config.delayFullCycles + waited d 9 = 33 + 16 * Config.delayFullCycles + waited d 8 + 1 + 1 +
    (Config.delayFullCycles + 1 + d 8) by omega]

end

/-- Settles O41: a low sample goes on to SCL_HOLD, SDA_HOLD and END. -/
theorem writeAcknowledgedRunsToItsEnd : Obligations.WriteAcknowledgedRunsToItsEnd := by
  rintro s data _ d rfl ⟨bound, differ⟩ presented noReset waits low
  have polls : waited d 9 = waited d 8 + d 8 := rfl
  obtain ⟨sdaReleased, pulse, _, sample⟩ :=
    Running.writeAckPulse bound differ presented (noReset.mono (by omega)) waits
  obtain ⟨_, acknowledged⟩ := sample.ackLow (by decide) (noReset _ (by omega)) rfl low
  obtain ⟨_, sclHeld⟩ := acknowledged.sclHold (by decide) differ (noReset _ (by omega)) rfl
  obtain ⟨_, sdaHeld⟩ := sclHeld.sdaHold (by decide) differ (noReset _ (by omega)) rfl
  obtain ⟨t, run, idle, valid, ok, nack, sh, -, phase, binding, others, lines⟩ :=
    sdaHeld.finish (noReset _ (by omega)) rfl
  refine ⟨sdaReleased, fun j hj => ?bothReleased, sclHeld.linesAt (by omega), sdaHeld.bhAt (by omega), t,
    (congrArg (runSteps · s) (by omega)).trans run, boundary_bh_of_lines lines, idle, valid, ok, nack, sh, phase,
    binding, others⟩
  case bothReleased =>
    obtain before | rfl := Nat.lt_succ_iff_lt_or_eq.mp (Nat.lt_succ_of_le hj)
    · exact (pulse j (by omega)).br rfl
    · exact acknowledged.brAt (by omega)

/-- Settles O42: a high sample ends the command in that step, with both lines RELEASED as they were. -/
theorem writeNotAcknowledgedRunsToItsEnd : Obligations.WriteNotAcknowledgedRunsToItsEnd := by
  rintro s data _ d rfl ⟨bound, differ⟩ presented noReset waits high
  obtain ⟨sdaReleased, pulse, _, sample⟩ :=
    Running.writeAckPulse bound differ presented (noReset.mono (by omega)) waits
  obtain ⟨t, run, idle, valid, failed, nack, sh, phase, binding, others, lines⟩ :=
    sample.ackHigh (noReset _ (by omega)) rfl high
  exact ⟨sdaReleased, fun j hj => (pulse j hj).br rfl, t, (congrArg (runSteps · s) (by omega)).trans run,
    boundary_br_of_lines lines, idle, valid, failed, nack, sh, phase, binding, others⟩

end Sys2Proof.Machine
end

section
/-! PROOFS. spec/45_read_byte.md: a whole READ (R130, R132), for every length of the delays and every stretching of the
clock. -/

namespace Sys2Proof.Machine

/-- The step at which bit `i` of a READ begins: an accept, SDA_RELEASE and a full delay, then six uops for each bit, two
half delays among them (R130). -/
abbrev readBitStart (d : Nat → Nat) (i : Nat) : Nat :=
  bitStart (2 + Config.delayFullCycles) (4 + 2 * Config.delayHalfCycles) d i

theorem readBitStart_eq (d : Nat → Nat) (i : Nat) :
    readBitStart d i = 2 + Config.delayFullCycles + i * (4 + 2 * Config.delayHalfCycles) + waited d i := rfl

/-- The level of the data line that bit `i` of a READ samples: a half delay after its wait has ended. -/
def readSample (s : State) (d : Nat → Nat) (i : Nat) : Bool :=
  s.pinAt .sda (readBitStart d i + 2 + d i + Config.delayHalfCycles)

/-- The first `n` samples, in the order they are taken. -/
def readSamples (s : State) (d : Nat → Nat) (n : Nat) : List Bool := (List.range n).map (readSample s d)

section
variable {s : State} {last : Bool} {k i : Nat} {sh : Byte} {sda scl : Bool × Bool} {t : State} {d : Nat → Nat}

/-! ### One bit -/

/-- The uops of bit `i` (R130). -/
theorem prog_readBit (last : Bool) (hi : i < 8) : ((prog Opc.read last).drop (2 + 6 * i)).take 6 = readBit := by
  obtain ⟨-, -, -, read, -⟩ := microProgramTable
  obtain ⟨-, bits⟩ := read last
  exact bits i hi

/-- One bit of a READ: the level of the data line, a half delay after the wait, shifted into `sh` (R131). -/
theorem Running.readBit (n : Nat) (h : Running s Opc.read last k (2 + 6 * i) none sh sda scl t) (hi : i < 8)
    (differ : s.sdaBit ≠ s.sclBit) (noReset : NoReset s (k + (4 + 2 * Config.delayHalfCycles) + n))
    (answered : WaitAnswered s (k + 1) n) :
    ∃ t', Running s Opc.read last (k + (4 + 2 * Config.delayHalfCycles) + n) (2 + 6 * (i + 1)) none
      (shiftIn sh (s.pinAt .sda (k + 2 + n + Config.delayHalfCycles))) sda (true, false) t' := by
  have half : DelayUop Uop.delayHalf Config.delayHalfCycles := .inr ⟨rfl, rfl⟩
  have uop {j : Nat} {c : UopCode} (hc : Machine.readBit[j]? = some c) :
      (prog Opc.read last)[2 + 6 * i + j]? = some c :=
    getElem?_of_take_drop (part := Machine.readBit) (prog_readBit last hi) hc
  obtain ⟨_, released⟩ := h.sclRelease (by omega) differ (noReset k (by omega)) (uop (j := 0) rfl)
  obtain ⟨_, high⟩ := released.wait n (by omega) (fun j hj => noReset _ (by omega)) (uop (j := 1) rfl) answered
  obtain ⟨_, middle⟩ := high.delayed half (by omega) (fun j hj => noReset _ (by omega)) (uop (j := 2) rfl)
  rw [show k + 1 + n + 1 + Config.delayHalfCycles = k + 2 + n + Config.delayHalfCycles by omega] at middle
  obtain ⟨_, sampled⟩ := middle.sdaGet (by omega) (noReset _ (by omega)) (uop (j := 3) rfl)
  obtain ⟨_, ended⟩ := sampled.delayed half (by omega) (fun j hj => noReset _ (by omega)) (uop (j := 4) rfl)
  obtain ⟨t', held⟩ := ended.sclHold (by omega) differ (noReset _ (by omega)) (uop (j := 5) rfl)
  refine ⟨t', ?_⟩
  rwa [show k + (4 + 2 * Config.delayHalfCycles) + n =
    k + 2 + n + Config.delayHalfCycles + 1 + Config.delayHalfCycles + 1 by omega]

/-! ### The eight bits -/

theorem foldl_readSamples_succ (s : State) (d : Nat → Nat) (n : Nat) (v : Byte) :
    (readSamples s d (n + 1)).foldl shiftIn v = shiftIn ((readSamples s d n).foldl shiftIn v) (readSample s d n) := by
  simp [readSamples, List.range_succ]

/-- Where bit `i` begins `i` samples have been shifted in, and the clock is HELD but before the first one. -/
theorem Running.readBits (h : Running s Opc.read last (2 + Config.delayFullCycles) 2 none sh sda scl t)
    (differ : s.sdaBit ≠ s.sclBit) (hi : i ≤ 8) (noReset : NoReset s (readBitStart d i))
    (answered : ∀ j < i, WaitAnswered s (readBitStart d j + 1) (d j)) :
    ∃ t', Running s Opc.read last (readBitStart d i) (2 + 6 * i) none ((readSamples s d i).foldl shiftIn sh) sda
      (if i = 0 then scl else (true, false)) t' := by
  induction i with
  | zero =>
    rw [readBitStart, bitStart_zero]
    exact ⟨t, h⟩
  | succ i ih =>
    have before : readBitStart d i ≤ readBitStart d (i + 1) := bitStart_mono _ _ d i.le_succ
    obtain ⟨_, bit⟩ := ih (by omega) (noReset.mono before) fun j hj => answered j (by omega)
    rw [readBitStart, bitStart_succ] at noReset
    obtain ⟨t', next⟩ := bit.readBit (d i) hi differ noReset (answered i i.lt_succ_self)
    rw [foldl_readSamples_succ, readBitStart, bitStart_succ]
    exact ⟨t', next⟩

/-- Of eight samples the first is the top bit (R131). -/
theorem getLsbD_readSamples (s : State) (d : Nat → Nat) (v : Byte) (hi : i < 8) :
    ((readSamples s d 8).foldl shiftIn v).getLsbD (7 - i) = readSample s d i := by
  have sampled := getLsbD_foldl_shiftIn (readSamples s d 8) v i (readSample s d i) (by simp [readSamples])
    (by simp [readSamples, hi])
  rwa [show (readSamples s d 8).length = 8 by simp [readSamples]] at sampled

/-! ### The ninth pulse (R132) -/

/-- A READ's own acknowledgment: SDA_HOLD for ACK, SDA_RELEASE for NACK (R130). -/
theorem Running.readAnswer (h : Running s Opc.read last k 50 none sh sda scl t) (differ : s.sdaBit ≠ s.sclBit)
    (noReset : (s.portInAt k).rst = false) :
    ∃ t', Running s Opc.read last (k + 1) 51 none sh (!last, last) scl t' := by
  cases last with
  | true => exact h.sdaRelease (by decide) differ noReset rfl
  | false => exact h.sdaHold (by decide) differ noReset rfl

/-- The word of a READ. -/
theorem readWord_eq (last : Bool) : (if last then 0x401#12 else 0x400#12) = cmdWord Opc.read (readArg last) := by
  cases last <;> rfl

/-- Eight samples in `sh`, the data line answers through one whole clock pulse. -/
theorem Running.readAckPulse (bound : s.bound = true) (differ : s.sdaBit ≠ s.sclBit)
    (presented : Presented (if last then 0x401#12 else 0x400#12) s)
    (noReset : NoReset s (38 + 3 * Config.delayFullCycles + 16 * Config.delayHalfCycles + waited d 9))
    (waits : ∀ i < 8,
      WaitAnswered s (3 + Config.delayFullCycles + i * (4 + 2 * Config.delayHalfCycles) + waited d i) (d i))
    (lastWait : WaitAnswered s (36 + Config.delayFullCycles + 16 * Config.delayHalfCycles + waited d 8) (d 8)) :
    (∀ j ≤ Config.delayFullCycles + 1 + d 8,
      LinesAt s (36 + Config.delayFullCycles + 16 * Config.delayHalfCycles + waited d 8 + j)
        (if last then .released else .held) .released) ∧
    (∀ j ≤ Config.delayFullCycles,
      LinesAt s (38 + 2 * Config.delayFullCycles + 16 * Config.delayHalfCycles + waited d 9 + j)
        (if last then .released else .held) .held) ∧
    ∃ t, Running s Opc.read last (38 + 3 * Config.delayFullCycles + 16 * Config.delayHalfCycles + waited d 9) 56 none
      ((readSamples s d 8).foldl shiftIn (readArg last)) (!last, last) (true, false) t := by
  have polls : waited d 9 = waited d 8 + d 8 := rfl
  have start : readBitStart d 8 = 34 + Config.delayFullCycles + 16 * Config.delayHalfCycles + waited d 8 := by
    rw [readBitStart_eq]
    omega
  rw [readWord_eq] at presented
  have decoded : decodeCmd (cmdWord Opc.read (readArg last)) = .ok (.read last) :=
    decodeCmd_commandWord (.read last) rfl rfl
  have lastBit : (readArg last).getLsbD 0 = last := by cases last <;> rfl
  obtain ⟨_, accepted⟩ := Running.acceptedOfBound bound (by decide) decoded presented (noReset 0 (by omega))
  rw [lastBit] at accepted
  obtain ⟨_, sdaReleased⟩ := accepted.sdaRelease (by decide) differ (noReset 1 (by omega)) rfl
  obtain ⟨_, begun⟩ := sdaReleased.delayed (.inl ⟨rfl, rfl⟩) (by decide) (fun j hj => noReset _ (by omega)) rfl
  obtain ⟨_, received⟩ := begun.readBits (d := d) differ le_rfl (noReset.mono (by omega)) fun j hj => by
    rw [show readBitStart d j + 1 =
      3 + Config.delayFullCycles + j * (4 + 2 * Config.delayHalfCycles) + waited d j by rw [readBitStart_eq]; omega]
    exact waits j hj
  rw [start] at received
  obtain ⟨_, answer⟩ := received.readAnswer differ (noReset _ (by omega))
  have toggles : ((prog Opc.read last).drop 51).take 5 = toggle := by cases last <;> rfl
  obtain ⟨high, low, t, ended⟩ := answer.clockPulse (d 8) (by decide) differ toggles (noReset.mono (by omega))
    (by rwa [show 34 + Config.delayFullCycles + 16 * Config.delayHalfCycles + waited d 8 + 1 + 1 =
      36 + Config.delayFullCycles + 16 * Config.delayHalfCycles + waited d 8 by omega])
  rw [pairState_not_self] at high low
  refine ⟨fun j hj => (high j hj).at (by omega), fun j hj => (low j hj).at (by omega), t, ?_⟩
  rwa [show 38 + 3 * Config.delayFullCycles + 16 * Config.delayHalfCycles + waited d 9 =
    34 + Config.delayFullCycles + 16 * Config.delayHalfCycles + waited d 8 + 1 + 3 + d 8 + 2 * Config.delayFullCycles
    by omega]

/-- After the ninth pulse the data line is released, by one more uop behind an ACK, and END is next (R132). -/
theorem Running.readReleased (h : Running s Opc.read last k 56 none sh (!last, last) scl t)
    (differ : s.sdaBit ≠ s.sclBit) (noReset : last = false → (s.portInAt k).rst = false) :
    ∃ t', Running s Opc.read last (if last then k else k + 1) (if last then 56 else 57) none sh (false, true) scl
      t' := by
  cases last with
  | true => exact ⟨t, h⟩
  | false => exact h.sdaRelease (by decide) differ (noReset rfl) rfl

end

/-- Settles O44: the data line is set before the ninth TOGGLE, which leaves it. -/
theorem readAnswersAckOrNack : Obligations.ReadAnswersAckOrNack := by
  rintro s last _ _ d rfl rfl ⟨bound, differ⟩ presented noReset waits lastWait
  obtain ⟨high, low, -⟩ := Running.readAckPulse bound differ presented noReset waits lastWait
  exact ⟨fun j hj => (high j hj).sclFirst rfl, fun j hj => (low j hj).sclFirst rfl⟩

/-- Settles O43: END returns `sh`, in which the eight samples stand in the order taken. -/
theorem readReturnsTheSampledByte : Obligations.ReadReturnsTheSampledByte := by
  rintro s last _ _ d rfl rfl ⟨bound, differ⟩ presented noReset waits lastWait
  obtain ⟨-, -, _, pulse⟩ :=
    Running.readAckPulse bound differ presented (noReset.mono (by split <;> omega)) waits lastWait
  obtain ⟨_, released⟩ := pulse.readReleased differ fun ack => noReset _ (by simp [ack])
  have endUop : (prog Opc.read last)[if last then 56 else 57]? = some Uop.endUop := by cases last <;> rfl
  obtain ⟨t, run, idle, valid, ok, nack, -, data, phase, binding, others, lines⟩ :=
    released.finish (noReset _ (by split <;> omega)) endUop
  refine ⟨t, (congrArg (runSteps · s) (by split <;> omega)).trans run, fun i hi => ?sample,
    by simp [State.boundary, lines, pairState], idle, valid, ok, nack, phase, binding, others⟩
  case sample =>
    rw [data, getLsbD_readSamples s d _ hi, readSample]
    congr 1
    rw [readBitStart_eq, waited]
    omega

end Sys2Proof.Machine
end
